-- ==== Sys2Proof/Word.lean ====
section
/-! DEFINITION. The plainest types: the command word, logic levels, sequences of them, and the levels on the block's
input ports in one clock cycle. -/

namespace Sys2Proof

/-- A command word `CMD[31:0]`, bit 0 least significant (rules R8, R70). -/
abbrev Word := BitVec 32

/-- A logic level (rule R7): `true` is 1, the high level, and `false` is 0. The spec has no third value. -/
abbrev Level := Bool

/-- A BitSequence (rules R9, R100): element 0 first. -/
abbrev BitSequence := List Level

/-- The levels on the input ports in one clock cycle, as the rising edge that ends the cycle samples them (rules R20,
R21). The clock itself has no field: one step of the machine IS one rising edge of `clk`. -/
structure Pins where
  /-- `rst`, synchronous reset, active high. -/
  rst : Bool
  /-- `tick`, the sample-advance strobe. -/
  tick : Bool
  /-- `cmd_valid`: the host offers the word on `cmd`. -/
  cmdValid : Bool
  /-- `cmd`, the command word. -/
  cmd : Word
  deriving DecidableEq, Repr, Inhabited

end Sys2Proof
end

