-- ==== Sys2Proof/Config.lean ====
section
/-! DEFINITION. What is fixed when the block is built (rules R5, R6) and the free value: the environment's inputs beyond
those a state lists. No command and no port changes any of it (rules R35, R267). -/

namespace Sys2Proof.Config

/-- The order in which the bits of a stored byte go out on a wire (rule R55). -/
inductive BitOrder where
  | lsbFirst
  | msbFirst
  deriving DecidableEq, Repr

/-! ## The fixed protocol configuration (rule R5) -/

/-- `UART_START`. -/
def uartStart : Level := false
/-- `UART_STOP`. -/
def uartStop : Level := true
/-- `UART_ORDER`. -/
def uartOrder : BitOrder := .lsbFirst
/-- `UART_IDLE`. -/
def uartIdle : Level := true
/-- `UART_WIDTH`. -/
def uartWidth : Nat := 8
/-- `SPI_CPOL`: the level at which SCLK idles. -/
def spiCpol : Level := false
/-- `SPI_CPHA`: `false` is phase 0, data sampled on the first SCLK edge of a bit. -/
def spiCpha : Level := false
/-- `SPI_SS_ACTIVE`: the level of a selected SS. -/
def spiSsActive : Level := false
/-- `SPI_WIDTH`. -/
def spiWidth : Nat := 8
/-- The SPI bit order of rule R6, which is decision D15's reading of the source. -/
def spiOrder : BitOrder := .msbFirst
/-- `spi_mosi` while no SPI sample is shown (rules R22, R125, decision D19). -/
def spiMosiIdle : Level := false
/-- `I2C_ADDR_WIDTH`. -/
def i2cAddrWidth : Nat := 7
/-- `I2C_RW`: 0 is a write. -/
def i2cRw : Level := false
/-- `I2C_ACK`. -/
def i2cAck : Level := false
/-- `I2C_DATA_WIDTH`. -/
def i2cDataWidth : Nat := 8
/-- `I2C_IDLE`, on SCL and on SDA. -/
def i2cIdle : Level := true

/-! ## Parameters the source leaves open (rule R6) -/

/-- `N_UART`, in samples. -/
def nUart : Nat := 12
/-- `N_SPI`, in samples. -/
def nSpi : Nat := 20
/-- `N_I2C`, in samples. -/
def nI2c : Nat := 44

/-- The default of the host parameter `TRIM_SET` (rules R6, R211): the characters that JavaScript's
`String.prototype.trim` removes. PRESUMED (log 6): the spec names that set and does not list it. Every function that
trims takes the set as an argument. -/
def defaultTrimSet : List Char :=
  [0x09, 0x0A, 0x0B, 0x0C, 0x0D, 0x20, 0xA0, 0x1680,
   0x2000, 0x2001, 0x2002, 0x2003, 0x2004, 0x2005, 0x2006, 0x2007, 0x2008, 0x2009, 0x200A,
   0x2028, 0x2029, 0x202F, 0x205F, 0x3000, 0xFEFF].map Char.ofNat

/-! ## The free value -/

/-- FREE VALUE (log 1): the input levels at the `n`-th rising edge for which the state lists no inputs. The
environment may drive anything there (rules R21, R266, R274), so nothing can be proved of it. -/
opaque envPins : Nat → Pins

end Sys2Proof.Config
end

