-- ==== Sys2Proof/Syntax.lean ====
section
/-! DEFINITION. The commands: one constructor per row of the opcode table (rule R81), and the source form an assembler
line gives them (rule R85). -/

namespace Sys2Proof

/-- The tagged variant that selects an encoder (rule R72). -/
inductive Protocol where
  | uart
  | spi
  | i2c
  deriving DecidableEq, Repr

/-- A command: `len` is LEN (rule R74) and `payload` is PAYLOAD (rule R75). The two field types carry the whole range
rule R85 allows and no more, so every term is a command, with one word (rule R86). `len` 0 is a command too: it
assembles, and the block raises EMPTY for it (rule R85). -/
inductive Instr where
  /-- `UART len, payload` (rule R140). -/
  | uart (len : BitVec 5) (payload : BitVec 16)
  /-- `SPI len, payload` (rule R160). -/
  | spi (len : BitVec 5) (payload : BitVec 16)
  /-- `I2C len, payload` (rule R180). -/
  | i2c (len : BitVec 5) (payload : BitVec 16)
  deriving DecidableEq, Repr

namespace Instr

/-- The protocol a command selects (rule R72). -/
def protocol : Instr → Protocol
  | .uart _ _ => .uart
  | .spi _ _ => .spi
  | .i2c _ _ => .i2c

/-- LEN (rule R74). -/
def len : Instr → BitVec 5
  | .uart l _ => l
  | .spi l _ => l
  | .i2c l _ => l

/-- PAYLOAD (rule R75). -/
def payload : Instr → BitVec 16
  | .uart _ p => p
  | .spi _ p => p
  | .i2c _ p => p

/-- The command of a protocol and its two operands. -/
def ofProtocol : Protocol → BitVec 5 → BitVec 16 → Instr
  | .uart, l, p => .uart l p
  | .spi, l, p => .spi l p
  | .i2c, l, p => .i2c l p

end Instr

/-- A command as an assembler line writes it (rule R85): its operands are plain numbers, which may be out of range. -/
structure SourceCommand where
  protocol : Protocol
  len : Nat
  payload : Nat
  deriving DecidableEq, Repr

/-- The source form of a command. -/
def Instr.toSource (i : Instr) : SourceCommand :=
  ⟨i.protocol, i.len.toNat, i.payload.toNat⟩

end Sys2Proof
end

