-- ==== Sys2Proof/WellFormed.lean ====
section
/-! DEFINITION. The range checks on a command's operands. An `Instr` cannot be ill-formed, since its field types carry
both bounds; what can be ill-formed is the source form, and the assembler refuses it (rule R85). -/

namespace Sys2Proof

/-- "`len` is a decimal number 0..31" (rule R85). -/
def SourceCommand.lenInRange (c : SourceCommand) : Bool := decide (c.len ≤ 31)

/-- "`payload` is a number 0..0xFFFF" (rule R85). -/
def SourceCommand.payloadInRange (c : SourceCommand) : Bool := decide (c.payload ≤ 0xFFFF)

/-- Both operands are in range. -/
def SourceCommand.wellFormed (c : SourceCommand) : Bool := c.lenInRange && c.payloadInRange

/-- The command a source form stands for: none when an operand is out of range. "The assembler refuses an operand out
of range; it never truncates one" (rule R85). -/
def SourceCommand.toInstr? (c : SourceCommand) : Option Instr :=
  if c.wellFormed then
    some (Instr.ofProtocol c.protocol (BitVec.ofNat 5 c.len) (BitVec.ofNat 16 c.payload))
  else none

end Sys2Proof
end

