-- ==== Sys2Proof/Decode.lean ====
section
/-! DEFINITION. The fields of a command word, the decoder (total on all words, rejecting by name) and the encoder
(rules R70 to R76, R81, R86). -/

namespace Sys2Proof

/-! ## Fields (rule R70) -/

/-- RES_HI, `CMD[31:26]`. -/
def resHiField (w : Word) : BitVec 6 := w.extractLsb' 26 6
/-- PROTO, `CMD[25:24]`. -/
def protoField (w : Word) : BitVec 2 := w.extractLsb' 24 2
/-- RES_LO, `CMD[23:21]`. -/
def resLoField (w : Word) : BitVec 3 := w.extractLsb' 21 3
/-- LEN, `CMD[20:16]`. -/
def lenField (w : Word) : BitVec 5 := w.extractLsb' 16 5
/-- PAYLOAD, `CMD[15:0]`. -/
def payloadField (w : Word) : BitVec 16 := w.extractLsb' 0 16

/-- The PROTO value of a protocol (rule R72). -/
def protoCode : Protocol → BitVec 2
  | .uart => 0b00#2
  | .spi => 0b01#2
  | .i2c => 0b10#2

/-- `proto(CMD)` (rule R73). The spec leaves it undefined for PROTO = 11, and so it is none there. -/
def proto (w : Word) : Option Protocol :=
  if protoField w = 0b00#2 then some .uart
  else if protoField w = 0b01#2 then some .spi
  else if protoField w = 0b10#2 then some .i2c
  else none

/-! ## Decoder -/

/-- Why a word is no command. The block records ILLEGAL for each of them (rule R233). -/
inductive DecodeError where
  /-- `CMD[31:26] != 0` (rule R76). -/
  | reservedHi
  /-- `CMD[23:21] != 0` (rule R76). -/
  | reservedLo
  /-- `CMD[25:24] = 11` (rule R72). -/
  | reservedProto
  deriving DecidableEq, Repr

/-- The command a word stands for. The checks run in the order reserved bits, then PROTO (rule R236). A word that passes
them matches one row of the opcode table (rule R81). LEN = 0 is not looked at here: such a word matches its row, and
the command it stands for raises EMPTY when it is run. -/
def decode (w : Word) : Except DecodeError Instr :=
  if resHiField w ≠ 0#6 then .error .reservedHi
  else if resLoField w ≠ 0#3 then .error .reservedLo
  else match proto w with
    | none => .error .reservedProto
    | some p => .ok (Instr.ofProtocol p (lenField w) (payloadField w))

/-! ## Encoder -/

/-- The word of a protocol and two operands, field by field (rule R70), reserved bits 0. -/
def commandWord (p : Protocol) (len : BitVec 5) (payload : BitVec 16) : Word :=
  (0#6 ++ protoCode p ++ 0#3 ++ len ++ payload : BitVec (6 + 2 + 3 + 5 + 16))

/-- The word of a command (rule R86). -/
def encode (i : Instr) : Word := commandWord i.protocol i.len i.payload

/-! ## The host's reading of the opcode table -/

/-- The command that `decode` reads from a table row's word: `nbits` bits of `w`, every bit above them 0. A command is
one 32-bit word delivered whole, so there is no byte order to apply (rules R51, R71). -/
def decodeTableWord (nbits w : Nat) : Option Instr :=
  (decode (BitVec.ofNat 32 (w % 2 ^ nbits))).toOption

end Sys2Proof
end

