-- ==== Sys2Proof/Machine/State.lean ====
section
/-! DEFINITION. The machine's state, why a step can stop, and the state right after a reset edge. -/

namespace Sys2Proof.Machine

/-- Why the machine stops with a fault: never. The block has no trap and no halt. An erroneous command is accepted and
recorded in ERR and ERR_CODE, and the block goes on (rules R235, R238), so this type has no constructor. Safe. -/
inductive Fault where
  deriving DecidableEq, Repr

/-- Why a step has no meaning. Rule R128: a model that meets a state no sequence of edges from reset reaches "refuses:
it stops with a named refusal and gives the state no meaning". Every constructor but the first names one clause of
that rule; `step` raises it at an edge with `rst = 0`. Each is safe: the machine stops where the hardware is silent. -/
inductive Refusal where
  /-- An instruction that has no meaning yet, by its mnemonic. Raised by an arm of `exec` only; no arm raises it now.
  Safe. -/
  | notModelled (mnemonic : String)
  /-- `BUSY = 1` and `CMD_R[25:24] = 11` or a reserved bit of `CMD_R` is set. Safe. -/
  | illegalCommandHeld
  /-- `BUSY = 1` and `POS > N(proto(CMD_R))`. Safe. -/
  | posBeyondTrace
  /-- `BUSY = 0` and `POS != 0`. Safe. -/
  | posWhileNotBusy
  /-- `ERR_CODE = 11`. Safe. -/
  | errCodeReserved
  /-- `ERR = 0` and `ERR_CODE != 00`. Safe. -/
  | errCodeWithoutErr
  /-- `ERR = 1` and `ERR_CODE = 00`. Safe. -/
  | errWithoutErrCode
  /-- `DONE = 1` and `BUSY = 1`. Safe. -/
  | doneWhileBusy
  deriving DecidableEq, Repr

end Sys2Proof.Machine

namespace Sys2Proof.Machine

/-- The whole state. The first six fields are the block's six registers, and it has no other (rules R23, R36, R37, R38).
The last two are the model's own: what the environment drives on the input ports. -/
@[ext]
structure State where
  /-- `CMD_R[31:0]`, the command being played (rule R24). -/
  cmdR : Word
  /-- `BUSY` (rule R25). -/
  busy : Bool
  /-- `POS[5:0]`, the number of ticks taken since acceptance (rule R26). -/
  pos : BitVec 6
  /-- `ERR` (rule R27). -/
  err : Bool
  /-- `ERR_CODE[1:0]` (rule R28). -/
  errCode : BitVec 2
  /-- `DONE` (rule R29). -/
  done : Bool
  /-- The input levels of the current cycle and of the cycles after it, the current one first (log 1). -/
  inputs : List Pins
  /-- How many edges have drawn their inputs from `Config.envPins`, because `inputs` was empty (log 1). -/
  unscripted : Nat
  deriving DecidableEq, Repr

/-- The state right after a reset edge (rules R39, R260): every register 0. `inputs` lists nothing and `unscripted` is 0
by the model's own choice (DESIGN CHOICE, log 1). It is NOT the state before the first reset edge, which is unknown
(rule R265, log 3). -/
def State.reset : State where
  cmdR := 0#32
  busy := false
  pos := 0#6
  err := false
  errCode := 0#2
  done := false
  inputs := []
  unscripted := 0

end Sys2Proof.Machine
end

