-- ==== Sys2Proof/Machine/Flags.lean ====
section
/-! DEFINITION. The status flags: the error codes, and every way ERR, ERR_CODE and DONE are written (rules R27 to R29,
R231). -/

namespace Sys2Proof.Machine

/-- NONE (rule R231). -/
def codeNone : BitVec 2 := 0b00#2
/-- EMPTY (rule R231). -/
def codeEmpty : BitVec 2 := 0b01#2
/-- ILLEGAL (rule R231). -/
def codeIllegal : BitVec 2 := 0b10#2
/-- The value that is "never produced" (rule R231). -/
def codeReserved : BitVec 2 := 0b11#2

/-- `ERR = 1` exactly when `ERR_CODE != 00` (rule R28). -/
def errOfCode (code : BitVec 2) : Bool := code != codeNone

/-- DONE at an edge that is no completion edge: `DONE <- 0` (rule R119). -/
def State.clearDone (s : State) : State := { s with done := false }

/-- The error status of an accepted command: its code, and ERR from the code (rules R27, R28). -/
def State.setErrorStatus (s : State) (code : BitVec 2) : State :=
  { s with err := errOfCode code, errCode := code }

end Sys2Proof.Machine
end

