-- ==== Sys2Proof/Machine/Operands.lean ====
section
/-! DEFINITION. Operand assembly: sequences, fitting, the BitSequence a command carries, and the classification of a
command word (rules R9, R10, R77 to R81). -/

namespace Sys2Proof.Machine

/-- `slice(s, a, b)`: the elements `a` to `b - 1` (rule R9). -/
def slice (s : BitSequence) (a b : Nat) : BitSequence := (s.drop a).take (b - a)

/-- `fit(n, s)`: the first `n` elements, padded on the right with 0 (rule R10). -/
def fit (n : Nat) (s : BitSequence) : BitSequence := (s ++ List.replicate n false).take n

/-- The bits of a stored payload in the order they go out (rules R52 to R55): the stored order is most significant
first, so LSB-first reverses it. -/
def onWire : Config.BitOrder → BitSequence → BitSequence
  | .lsbFirst, d => d.reverse
  | .msbFirst, d => d

/-- How many elements a command carries: `min(LEN, 16)` (rules R74, R77, R78). -/
def elementCount (w : Word) : Nat := min (lenField w).toNat 16

/-- Element `i` of PAYLOAD, `CMD[15 - i]` (rules R51, R75). -/
def payloadElement (w : Word) (i : Nat) : Level := w.getLsbD (15 - i)

/-- `bits(CMD)`, the BitSequence a command carries (rule R77). -/
def bits (w : Word) : BitSequence := (List.range (elementCount w)).map (payloadElement w)

/-- `e16(CMD)[i]`, the padded elements in closed form, for `i < 16` (rule R79). -/
def e16 (w : Word) (i : Nat) : Level :=
  if i < (lenField w).toNat then w.getLsbD (15 - i) else false

/-- The number a sequence stands for, its first element the most significant bit (rules R52, R181, R182). -/
def seqValue (s : BitSequence) : Nat := s.foldl (fun n b => 2 * n + b.toNat) 0

/-- What a word is to the block: the result type of the spec's own `decode` (rule R81). -/
inductive CommandClass where
  | illegal
  | empty (p : Protocol)
  | enc (p : Protocol) (s : BitSequence)
  deriving DecidableEq, Repr

/-- The spec's `decode(CMD)`, line by line (rule R81). -/
def classify (w : Word) : CommandClass :=
  if resHiField w ≠ 0#6 ∨ resLoField w ≠ 0#3 then .illegal
  else match proto w with
    | none => .illegal
    | some p => if lenField w = 0#5 then .empty p else .enc p (bits w)

end Sys2Proof.Machine
end

