-- ==== Sys2Proof/Machine/Ops.lean ====
section
/-! DEFINITION. The named operations on the registers and on the input ports: sampling the inputs, the reset action,
acceptance, recording an error (the block's one form of exception), advance and completion. -/

namespace Sys2Proof.Machine

/-! ## Input ports -/

/-- The levels on the input ports in the current cycle (rule R20): the first listed, or the environment's free ones. -/
def State.pins (s : State) : Pins :=
  match s.inputs with
  | p :: _ => p
  | [] => Config.envPins s.unscripted

/-- The state with the current cycle's inputs used up, as the rising edge leaves them. -/
def State.nextCycle (s : State) : State :=
  match s.inputs with
  | _ :: rest => { s with inputs := rest }
  | [] => { s with unscripted := s.unscripted + 1 }

/-- The levels on the input ports `k` cycles from now. -/
def State.pinsAt : State → Nat → Pins
  | s, 0 => s.pins
  | s, k + 1 => s.nextCycle.pinsAt k

/-! ## Trace length -/

/-- `N(p)`, the number of samples of a trace (rule R109). -/
def traceLen : Protocol → Nat
  | .uart => Config.nUart
  | .spi => Config.nSpi
  | .i2c => Config.nI2c

/-! ## Register operations -/

/-- The reset action: every register takes its reset value (rules R39, R260). -/
def State.resetRegisters (s : State) : State :=
  { s with cmdR := 0#32, busy := false, pos := 0#6, err := false, errCode := codeNone, done := false }

/-- Acceptance of a legal, non-empty command (rule R115). `DONE <- 0` is rule R119. -/
def State.startCommand (s : State) (w : Word) : State :=
  { s.clearDone.setErrorStatus codeNone with cmdR := w, busy := true, pos := 0#6 }

/-- What an error does, the ONE operation for EMPTY and ILLEGAL: ERR, ERR_CODE and DONE are written, and "CMD_R, BUSY
(= 0) and POS (= 0) keep their values" (rules R235, R237). There is no handler and no saved register, and no return:
the block takes its next command in the next cycle (rule R238). -/
def State.recordError (s : State) (code : BitVec 2) : State :=
  s.clearDone.setErrorStatus code

/-- Advance: the next sample is shown (rule R116). -/
def State.advance (s : State) : State := { s.clearDone with pos := s.pos + 1#6 }

/-- Completion: "`CMD_R`, `ERR` and `ERR_CODE` are unchanged" (rule R117). -/
def State.complete (s : State) : State := { s with busy := false, pos := 0#6, done := true }

/-! ## Unreachable states -/

/-- `CMD_R[25:24] = 11` or a reserved bit of `CMD_R` is set (rule R128): the word is ILLEGAL by rule R233. -/
def holdsIllegalWord (w : Word) : Bool :=
  resHiField w != 0#6 || resLoField w != 0#3 || (proto w).isNone

/-- `POS > N(proto(CMD_R))` (rule R128). -/
def State.posBeyondTrace (s : State) : Bool :=
  match proto s.cmdR with
  | some p => decide (traceLen p < s.pos.toNat)
  | none => false

/-- The clause of rule R128 that holds of a state, if one does. -/
def State.unreachable (s : State) : Option Refusal :=
  if s.busy && holdsIllegalWord s.cmdR then some .illegalCommandHeld
  else if s.busy && s.posBeyondTrace then some .posBeyondTrace
  else if !s.busy && s.pos != 0#6 then some .posWhileNotBusy
  else if s.errCode == codeReserved then some .errCodeReserved
  else if !s.err && s.errCode != codeNone then some .errCodeWithoutErr
  else if s.err && s.errCode == codeNone then some .errWithoutErrCode
  else if s.done && s.busy then some .doneWhileBusy
  else none

/-! ## What an edge does, by case -/

/-- A command offered to the block, the shared body of the three meanings. Busy: the word "is neither taken nor stored"
(rule R122), so nothing of the command happens (DESIGN CHOICE, log 5). Not busy: LEN = 0 raises EMPTY (rule R234), and
any other LEN starts the command (rule R115). -/
def offerCommand (p : Protocol) (len : BitVec 5) (payload : BitVec 16) (s : State) :
    Host.Outcome State Fault Refusal :=
  if s.busy then .next s
  else if len = 0#5 then .next (s.recordError codeEmpty)
  else .next (s.startCommand (commandWord p len payload))

/-- The acceptance of a word that is no command: ILLEGAL, whichever check it failed (rules R233, R236). -/
def rejectWord (_why : DecodeError) (s : State) : Host.Outcome State Fault Refusal :=
  .next (s.recordError codeIllegal)

/-- A tick while busy: advance while `POS < N(proto(CMD_R))`, else complete (rules R114, R116, R117). -/
def tickEdge (s : State) : Host.Outcome State Fault Refusal :=
  match proto s.cmdR with
  | some p => if s.pos.toNat < traceLen p then .next s.advance else .next s.complete
  | none => .refused .illegalCommandHeld

/-- No acceptance and no tick while busy: every register but DONE keeps its value (rules R118, R119). -/
def holdEdge (s : State) : Host.Outcome State Fault Refusal := .next s.clearDone

end Sys2Proof.Machine
end

