-- ==== Sys2Proof/Machine/Trace.lean ====
section
/-! DEFINITION. The trace data model of the transaction view: Signals, trace sets, encode errors and slot roles (rules
R101, R103, R106, R146, R168, R189). -/

namespace Sys2Proof.Machine

/-- The names of the Signals (rule R106). -/
inductive SignalName where
  | tx
  | ss
  | sclk
  | mosi
  | scl
  | sda
  deriving DecidableEq, Repr

/-- The name as the source writes it (rules R103, R106). -/
def SignalName.text : SignalName → String
  | .tx => "TX"
  | .ss => "SS"
  | .sclk => "SCLK"
  | .mosi => "MOSI"
  | .scl => "SCL"
  | .sda => "SDA"

/-- A Signal: a name and one level per sample (rule R103). -/
structure Signal where
  name : SignalName
  levels : List Level
  deriving DecidableEq, Repr

/-- A SignalTraceSet: a protocol and its Signals, in pin order (rules R103, R106). -/
structure SignalTraceSet where
  protocol : Protocol
  signals : List Signal
  deriving DecidableEq, Repr

/-- The levels of the Signal of a given name in a trace set. -/
def SignalTraceSet.levelsOf (t : SignalTraceSet) (n : SignalName) : Option (List Level) :=
  (t.signals.find? (fun sig => sig.name == n)).map Signal.levels

/-- How an encode fails: only on an empty payload (rule R101). An overlong payload is no error (rule R240). -/
inductive EncodingError where
  /-- The source's `EncodingError("empty payload")`. -/
  | emptyPayload
  deriving DecidableEq, Repr

/-- What a slot of a trace is for (rules R146, R168, R189). "Auxiliary": no port carries a role. -/
inductive SlotRole where
  | idle
  | start
  | data (bit : Nat)
  | stop
  | addr (bit : Nat)
  | rw
  | ack
  deriving DecidableEq, Repr

/-- The same level in both halves of a slot (rule R108). -/
def bothHalves (b : Level) : List Level := [b, b]

end Sys2Proof.Machine
end

