-- ==== Sys2Proof/Machine/I2c.lean ====
section
/-! DEFINITION. The I²C byte transmitter: its trace, its slot roles and the meaning of the command (43_i2c.md). -/

namespace Sys2Proof.Machine

/-- The 7 address elements (rule R181). -/
def i2cAddress (s : BitSequence) : BitSequence :=
  fit Config.i2cAddrWidth (slice s 0 Config.i2cAddrWidth)

/-- The 8 data elements, elements 7 to 14 of the input (rule R182). -/
def i2cData (s : BitSequence) : BitSequence :=
  fit Config.i2cDataWidth (slice s Config.i2cAddrWidth (Config.i2cAddrWidth + Config.i2cDataWidth))

/-- `q`, the bits on SDA between Start and Stop: address, R/W, ACK, data, ACK (rules R183, R190). -/
def i2cSequence (s : BitSequence) : BitSequence :=
  i2cAddress s ++ [Config.i2cRw] ++ [Config.i2cAck] ++ i2cData s ++ [Config.i2cAck]

/-- SCL: one low-high pulse per entry of `q`, high in the idle, Start and Stop slots (rule R185). -/
def i2cScl (q : BitSequence) : List Level :=
  bothHalves Config.i2cIdle ++ bothHalves true
    ++ q.flatMap (fun _ => [false, true])
    ++ bothHalves true ++ bothHalves Config.i2cIdle

/-- SDA: falls inside the Start slot, holds each entry of `q` for a slot, rises inside the Stop slot (rule R186). -/
def i2cSda (q : BitSequence) : List Level :=
  bothHalves Config.i2cIdle ++ [true, false]
    ++ q.flatMap bothHalves
    ++ [q.getLastD false, true] ++ bothHalves Config.i2cIdle

/-- `encodeI2c` (rule R180). -/
def encodeI2c (s : BitSequence) : SignalTraceSet where
  protocol := .i2c
  signals := [⟨.scl, i2cScl (i2cSequence s)⟩, ⟨.sda, i2cSda (i2cSequence s)⟩]

/-- The role of an I²C slot (rule R189). -/
def i2cRole (slot : Nat) : Option SlotRole :=
  if slot = 0 then some .idle
  else if slot = 1 then some .start
  else if slot ≤ 8 then some (.addr (8 - slot))
  else if slot = 9 then some .rw
  else if slot = 10 then some .ack
  else if slot ≤ 18 then some (.data (18 - slot))
  else if slot = 19 then some .ack
  else if slot = 20 then some .stop
  else if slot = 21 then some .idle
  else none

/-- `I2C len, payload` offered to the block (rule R180, "State written" and "Exceptions"). -/
def execI2c (len : BitVec 5) (payload : BitVec 16) (s : State) :
    Host.Outcome State Fault Refusal :=
  offerCommand .i2c len payload s

end Sys2Proof.Machine
end

