-- ==== Sys2Proof/Machine/Spi.lean ====
section
/-! DEFINITION. The SPI mode-0 transmitter: its trace, its slot roles and the meaning of the command (42_spi.md). -/

namespace Sys2Proof.Machine

/-- The 8 elements of a transfer, in the order they are sent (rules R161, R162). -/
def spiData (s : BitSequence) : BitSequence := onWire Config.spiOrder (fit Config.spiWidth s)

/-- SCLK over one data slot (rules R5, R164): phase 0 idles first and has its sampling edge in the middle of the slot. -/
def spiClockSlot : List Level :=
  if Config.spiCpha then [!Config.spiCpol, Config.spiCpol] else [Config.spiCpol, !Config.spiCpol]

/-- SS: selected over the data slots, one slot of the inactive level before and after (rule R163). -/
def spiSs : List Level :=
  bothHalves (!Config.spiSsActive)
    ++ List.replicate (2 * Config.spiWidth) Config.spiSsActive
    ++ bothHalves (!Config.spiSsActive)

/-- SCLK: one full cycle per data slot, the idle level in the two other slots (rule R164). -/
def spiSclk : List Level :=
  bothHalves Config.spiCpol
    ++ (List.replicate Config.spiWidth spiClockSlot).flatten
    ++ bothHalves Config.spiCpol

/-- MOSI: each element for a whole slot; `d[0]` in the slot before them and `d[7]` in the slot after (rule R165).
`fit` gives 8 elements for every input, so no default is ever taken. -/
def spiMosi (d : BitSequence) : List Level :=
  bothHalves (d.getD 0 false) ++ d.flatMap bothHalves ++ bothHalves (d.getD (Config.spiWidth - 1) false)

/-- `encodeSpi` (rule R160). There is no MISO (rule R167). -/
def encodeSpi (s : BitSequence) : SignalTraceSet where
  protocol := .spi
  signals := [⟨.ss, spiSs⟩, ⟨.sclk, spiSclk⟩, ⟨.mosi, spiMosi (spiData s)⟩]

/-- The role of an SPI slot (rule R168). -/
def spiRole (slot : Nat) : Option SlotRole :=
  if slot = 0 then some .idle
  else if slot ≤ 8 then some (.data (8 - slot))
  else if slot = 9 then some .idle
  else none

/-- `SPI len, payload` offered to the block (rule R160, "State written" and "Exceptions"). -/
def execSpi (len : BitVec 5) (payload : BitVec 16) (s : State) :
    Host.Outcome State Fault Refusal :=
  offerCommand .spi len payload s

end Sys2Proof.Machine
end

