-- ==== Sys2Proof/Machine/Uart.lean ====
section
/-! DEFINITION. The UART frame encoder: its trace, its slot roles and the meaning of the command (41_uart.md). -/

namespace Sys2Proof.Machine

/-- `frame`: start bit, the 8 data bits LSB first, stop bit (rules R140, R141). -/
def uartFrame (s : BitSequence) : List Level :=
  [Config.uartStart] ++ onWire Config.uartOrder (fit Config.uartWidth s) ++ [Config.uartStop]

/-- `encodeUart` (rule R140). -/
def encodeUart (s : BitSequence) : SignalTraceSet where
  protocol := .uart
  signals := [⟨.tx, [Config.uartIdle] ++ uartFrame s ++ [Config.uartIdle]⟩]

/-- The role of a UART slot (rule R146). -/
def uartRole (slot : Nat) : Option SlotRole :=
  if slot = 0 then some .idle
  else if slot = 1 then some .start
  else if slot ≤ 9 then some (.data (slot - 2))
  else if slot = 10 then some .stop
  else if slot = 11 then some .idle
  else none

/-- `UART len, payload` offered to the block (rule R140, "State written" and "Exceptions"). -/
def execUart (len : BitVec 5) (payload : BitVec 16) (s : State) :
    Host.Outcome State Fault Refusal :=
  offerCommand .uart len payload s

end Sys2Proof.Machine
end

