-- ==== Sys2Proof/Machine/Dispatch.lean ====
section
/-! DEFINITION. One arm per command: what the command does when it is offered to the block (rules R115, R122, R235). -/

namespace Sys2Proof.Machine

def exec (i : Instr) (s : State) : Host.Outcome State Fault Refusal :=
  match i with
  | .uart len payload => Sys2Proof.Machine.execUart len payload s
  | .spi len payload => Sys2Proof.Machine.execSpi len payload s
  | .i2c len payload => Sys2Proof.Machine.execI2c len payload s

end Sys2Proof.Machine
end

