-- ==== Sys2Proof/Machine/Edge.lean ====
section
/-! DEFINITION. What one rising edge of `clk` does (rules R113, R114). -/

namespace Sys2Proof.Machine

/-- The acceptance of the word on `cmd` (rule R115): decode it, and run the command or record ILLEGAL. -/
def acceptEdge (w : Word) (s : State) : Host.Outcome State Fault Refusal :=
  match decode w with
  | .ok i => exec i s
  | .error why => rejectWord why s

/-- One rising edge. The priority is rule R113's: reset, then acceptance, then tick, then hold. A state that rule R128
calls unreachable is refused, but a reset edge comes first and needs nothing of the old state (rule R260; DEDUCED,
log 2). -/
def clockEdge (s : State) : Host.Outcome State Fault Refusal :=
  if s.pins.rst then .next s.nextCycle.resetRegisters
  else match s.unreachable with
    | some why => .refused why
    | none =>
      if s.busy then
        if s.pins.tick then tickEdge s.nextCycle else holdEdge s.nextCycle
      else if s.pins.cmdValid then acceptEdge s.pins.cmd s.nextCycle
      else holdEdge s.nextCycle

end Sys2Proof.Machine
end

