-- ==== Sys2Proof/Machine/Lines.lean ====
section
/-! DEFINITION. The transaction view's dispatch, and the output ports as functions of the state (rules R22, R30 to R34,
R104, R123 to R125). The block keeps no state for its outputs (rule R37). -/

namespace Sys2Proof.Machine

/-! ## Transaction view -/

/-- `encode(p, s)` of the transaction view (rules R101, R104). -/
def encodeTrace (p : Protocol) (s : BitSequence) : Except EncodingError SignalTraceSet :=
  if s.isEmpty then .error .emptyPayload
  else match p with
    | .uart => .ok (encodeUart s)
    | .spi => .ok (encodeSpi s)
    | .i2c => .ok (encodeI2c s)

/-- `trace(CMD)`: "defined when `decode(CMD)` is `ENC`" (rule R104), and none otherwise. -/
def trace (w : Word) : Option SignalTraceSet :=
  match classify w with
  | .enc p s => (encodeTrace p s).toOption
  | .empty _ => none
  | .illegal => none

/-- `sample(CMD, name, k)` (rule R124): none where the trace has no such element. -/
def sample (w : Word) (n : SignalName) (k : Nat) : Option Level :=
  (trace w).bind (fun t => (t.levelsOf n).bind (fun l => l[k]?))

/-! ## Line outputs -/

/-- The protocol a line belongs to (rule R106). -/
def SignalName.protocol : SignalName → Protocol
  | .tx => .uart
  | .ss => .spi
  | .sclk => .spi
  | .mosi => .spi
  | .scl => .i2c
  | .sda => .i2c

/-- The idle level of a line (rules R22, R125). -/
def SignalName.idleLevel : SignalName → Level
  | .tx => Config.uartIdle
  | .ss => !Config.spiSsActive
  | .sclk => Config.spiCpol
  | .mosi => Config.spiMosiIdle
  | .scl => Config.i2cIdle
  | .sda => Config.i2cIdle

/-- The six line outputs in one cycle (rule R22). -/
structure Lines where
  uartTx : Level
  spiSsN : Level
  spiSclk : Level
  spiMosi : Level
  i2cScl : Level
  i2cSda : Level
  deriving DecidableEq, Repr

/-- All lines at their idle levels (rule R125). -/
def Lines.idle : Lines where
  uartTx := SignalName.idleLevel .tx
  spiSsN := SignalName.idleLevel .ss
  spiSclk := SignalName.idleLevel .sclk
  spiMosi := SignalName.idleLevel .mosi
  i2cScl := SignalName.idleLevel .scl
  i2cSda := SignalName.idleLevel .sda

/-- `active`: a sample is on the lines (rule R123). -/
def State.active (s : State) : Bool := s.busy && decide (1 ≤ s.pos.toNat)

/-- One line (rule R123). None where the spec gives no level: a sample of a word that has no trace, which no reachable
state shows (log 5). -/
def State.line (s : State) (n : SignalName) : Option Level :=
  if s.active && proto s.cmdR == some n.protocol then sample s.cmdR n (s.pos.toNat - 1)
  else some n.idleLevel

/-- The six lines (rule R123). None in a state that rule R128 gives no meaning. -/
def State.lines (s : State) : Option Lines :=
  match s.unreachable, s.line .tx, s.line .ss, s.line .sclk, s.line .mosi, s.line .scl, s.line .sda with
  | none, some tx, some ss, some sclk, some mosi, some scl, some sda =>
    some ⟨tx, ss, sclk, mosi, scl, sda⟩
  | _, _, _, _, _, _, _ => none

/-! ## Status outputs -/

/-- `cmd_ready`, the one output that also reads an input (rules R20, R30). -/
def State.cmdReadyOut (s : State) : Bool := !s.busy && !s.pins.rst

/-- The status outputs in one cycle (rule R22). -/
structure Status where
  cmdReady : Bool
  busy : Bool
  done : Bool
  err : Bool
  errCode : BitVec 2
  deriving DecidableEq, Repr

/-- The status outputs (rules R30 to R34). -/
def State.status (s : State) : Status where
  cmdReady := s.cmdReadyOut
  busy := s.busy
  done := s.done
  err := s.err
  errCode := s.errCode

end Sys2Proof.Machine
end

