-- ==== Sys2Proof/Machine/Step.lean ====
section
/-! DEFINITION. The step, and how a table row's word is put where the next step takes it. -/

namespace Sys2Proof.Machine

/-- One step of the machine: one rising edge of `clk` (rule R113). -/
def step (s : State) : Host.Outcome State Fault Refusal := clockEdge s

/-- `s` with a word offered on `cmd` in its current cycle (log 4): `rst = 0`, `cmd_valid = 1`, and the inputs `s` lists
come after it. A word is taken only when the block is not busy (rule R30), so BUSY and POS are 0. -/
def State.withFetchWord (s : State) (nbits w : Nat) : State :=
  { s with
    busy := false
    pos := 0#6
    inputs := ⟨false, false, true, BitVec.ofNat 32 (w % 2 ^ nbits)⟩ :: s.inputs }

end Sys2Proof.Machine
end

