-- ==== Sys2Proof/Machine/Normalizer.lean ====
section
/-! DEFINITION. The host's input normalizer and command loader (44_host_normalizer.md). They are not part of the block
and no step calls them; the assembler's text pseudo-instructions do (rule R87). A raw string is a list of characters. -/

namespace Sys2Proof.Machine

/-- Why `normalize` fails (rules R210, R230). -/
inductive ValidationError where
  /-- Empty after trimming (rule R212). -/
  | emptyInput
  /-- Neither binary nor hex digits (rule R216). -/
  | neitherFormat
  deriving DecidableEq, Repr

/-- Remove the leading and trailing characters of `trimSet` (rule R211). -/
def trim (trimSet : List Char) (raw : List Char) : List Char :=
  ((raw.dropWhile trimSet.contains).reverse.dropWhile trimSet.contains).reverse

/-- A character of the pattern `^[01]+$` (rule R213). -/
def isBinaryDigit (c : Char) : Bool := c == '0' || c == '1'

/-- The value of a character of `0-9A-Fa-f`; small letters have the values of the capitals (rule R214). -/
def hexValue (c : Char) : Option Nat :=
  if 48 ≤ c.toNat ∧ c.toNat ≤ 57 then some (c.toNat - 48)
  else if 65 ≤ c.toNat ∧ c.toNat ≤ 70 then some (c.toNat - 55)
  else if 97 ≤ c.toNat ∧ c.toNat ≤ 102 then some (c.toNat - 87)
  else none

/-- The 4 binary digits of a hex digit, most significant first (rule R214). -/
def nibbleBits (v : Nat) : BitSequence := [v.testBit 3, v.testBit 2, v.testBit 1, v.testBit 0]

/-- Binary input, character for character (rule R213). -/
def binaryBits (t : List Char) : BitSequence := t.map (fun c => c == '1')

/-- Hex input, digit by digit; none where a character is no hex digit (rule R214). -/
def hexBits : List Char → Option BitSequence
  | [] => some []
  | c :: t =>
    match hexValue c, hexBits t with
    | some v, some rest => some (nibbleBits v ++ rest)
    | _, _ => none

/-- `normalize(raw)`: binary is tried before hex (rules R210, R215). -/
def normalize (trimSet : List Char) (raw : List Char) : Except ValidationError BitSequence :=
  if (trim trimSet raw).isEmpty then .error .emptyInput
  else if (trim trimSet raw).all isBinaryDigit then .ok (binaryBits (trim trimSet raw))
  else match hexBits (trim trimSet raw) with
    | some b => .ok b
    | none => .error .neitherFormat

/-- The loader's LEN (rule R217). -/
def loadLen (b : BitSequence) : BitVec 5 := BitVec.ofNat 5 (min b.length 16)

/-- The loader's PAYLOAD: element `i` has weight `2^(15 - i)`, other bits 0 (rule R217). -/
def loadPayload (b : BitSequence) : BitVec 16 := BitVec.ofNat 16 (seqValue (fit 16 b))

/-- The loader: the command that carries a BitSequence of at least one element (rule R217). -/
def loadCommand (p : Protocol) (b : BitSequence) : Instr :=
  Instr.ofProtocol p (loadLen b) (loadPayload b)

/-- `normalize`, then the loader (rules R87, R218). On a ValidationError no command is made. -/
def textCommand (trimSet : List Char) (p : Protocol) (raw : List Char) : Except ValidationError Instr :=
  match normalize trimSet raw with
  | .ok b => .ok (loadCommand p b)
  | .error e => .error e

end Sys2Proof.Machine
end

