-- ==== Sys2Proof/Machine/Assembler.lean ====
section
/-! DEFINITION. The assembler notation (rules R84 to R88): one line as data, what it assembles to, and the reading of a
line's text. No step calls any of it. -/

namespace Sys2Proof.Machine

/-- One line of a program (rules R84 to R88). -/
inductive AsmLine where
  /-- An empty line or a comment. -/
  | blank
  /-- `UART len, payload` and the like (rule R85). -/
  | command (c : SourceCommand)
  /-- `.word`: a raw word, emitted unchanged even if it is ILLEGAL (rule R86). -/
  | word (w : Nat)
  /-- `UART "text"` and the like (rule R87). -/
  | text (p : Protocol) (raw : List Char)
  /-- `WAIT` (rule R88). -/
  | wait
  deriving DecidableEq, Repr

/-- Why a line assembles to nothing. -/
inductive AsmError where
  /-- An operand is out of range (rule R85). -/
  | operandRange
  /-- `normalize` failed on a text operand (rule R87). -/
  | validation (e : ValidationError)
  /-- The line has none of the forms of rules R84 to R88. -/
  | malformed
  deriving DecidableEq, Repr

/-- One thing a program makes the host do. -/
inductive HostOp where
  /-- Offer a word on `cmd` until it is accepted (rules R84, R88). -/
  | offer (w : Word)
  /-- Hold until `cmd_ready = 1` is observed (rule R88). -/
  | wait
  deriving DecidableEq, Repr

/-- What a line assembles to. A command line gives exactly one word (rule R84) and `WAIT` none (rule R88). -/
def assembleLine (trimSet : List Char) : AsmLine → Except AsmError (List HostOp)
  | .blank => .ok []
  | .command c =>
    match c.toInstr? with
    | some i => .ok [.offer (encode i)]
    | none => .error .operandRange
  | .word w => if w < 2 ^ 32 then .ok [.offer (BitVec.ofNat 32 w)] else .error .operandRange
  | .text p raw =>
    match textCommand trimSet p raw with
    | .ok i => .ok [.offer (encode i)]
    | .error e => .error (.validation e)
  | .wait => .ok [.wait]

/-- What a program assembles to, line by line. The first line's error is the whole program's, and then no line of it
offers anything. DESIGN CHOICE (log 12): rules R85, R87 and R218 say what becomes of the line that fails, and nothing of
the program's other lines. -/
def assemble (trimSet : List Char) : List AsmLine → Except AsmError (List HostOp)
  | [] => .ok []
  | l :: rest =>
    match assembleLine trimSet l, assemble trimSet rest with
    | .ok ops, .ok more => .ok (ops ++ more)
    | .error e, _ => .error e
    | .ok _, .error e => .error e

/-! ## Reading a line's text

The separators are the model's choice (DESIGN CHOICE, log 7): spaces and tabs separate, a comma parts two operands, and
a text operand stands between two quotation marks with no escapes. -/

/-- The quotation mark. -/
def quoteMark : Char := Char.ofNat 34

/-- The separators inside a line: space and tab. -/
def lineBlanks : List Char := [' ', Char.ofNat 9]

/-- A line without its comment: "`;` to end of line" (rule R84). Inside quotation marks `;` is text. -/
def stripComment : Bool → List Char → List Char
  | _, [] => []
  | quoted, c :: rest =>
    if c == ';' && !quoted then []
    else c :: stripComment (if c == quoteMark then !quoted else quoted) rest

/-- Digits of a base, most significant first; none for an empty list or a character that is no digit of the base. -/
def readDigits (base : Nat) (cs : List Char) : Option Nat :=
  if cs.isEmpty then none
  else cs.foldl (fun acc c =>
    match acc, hexValue c with
    | some n, some v => if v < base then some (base * n + v) else none
    | _, _ => none) (some 0)

/-- "decimal, `0x` hexadecimal or `0b` binary" (rule R85). -/
def readNumber : List Char → Option Nat
  | '0' :: 'x' :: rest => readDigits 16 rest
  | '0' :: 'b' :: rest => readDigits 2 rest
  | cs => readDigits 10 cs

/-- A mnemonic of rule R72; "mnemonics are case-insensitive" (rule R84). -/
def readMnemonic (cs : List Char) : Option Protocol :=
  if cs.map Char.toUpper = ['U', 'A', 'R', 'T'] then some .uart
  else if cs.map Char.toUpper = ['S', 'P', 'I'] then some .spi
  else if cs.map Char.toUpper = ['I', '2', 'C'] then some .i2c
  else none

/-- The operands of a command line: a quoted text (rule R87), or `len, payload` with a decimal `len` (rule R85). -/
def readOperands (p : Protocol) (cs : List Char) : Except AsmError AsmLine :=
  match cs with
  | [] => .error .malformed
  | c :: rest =>
    if c = quoteMark then
      if rest.getLast? = some quoteMark ∧ ¬ rest.dropLast.contains quoteMark then
        .ok (.text p rest.dropLast)
      else .error .malformed
    else
      match readDigits 10 (trim lineBlanks (cs.takeWhile (· != ','))),
            readNumber (trim lineBlanks ((cs.dropWhile (· != ',')).drop 1)) with
      | some len, some payload => .ok (.command ⟨p, len, payload⟩)
      | _, _ => .error .malformed

/-- One line of program text (rules R84 to R88). -/
def readLine (cs : List Char) : Except AsmError AsmLine :=
  let body := trim lineBlanks (stripComment false cs)
  let head := body.takeWhile (fun c => !lineBlanks.contains c)
  let operands := trim lineBlanks (body.dropWhile (fun c => !lineBlanks.contains c))
  match readMnemonic head with
  | some p => readOperands p operands
  | none =>
    if body.isEmpty then .ok .blank
    else if head.map Char.toUpper = ['W', 'A', 'I', 'T'] ∧ operands.isEmpty then .ok .wait
    else if head.map Char.toUpper = ['.', 'W', 'O', 'R', 'D'] then
      match readNumber operands with
      | some w => .ok (.word w)
      | none => .error .malformed
    else .error .malformed

end Sys2Proof.Machine
end

