-- ==== Sys2Proof/Machine/HostProgram.lean ====
section
/-! DEFINITION. A host that runs an assembled program on the command port by the handshake of rules R88, R268 and R269.
It stands outside the block: it drives the input ports and reads `cmd_ready`. -/

namespace Sys2Proof.Machine

/-- The input ports in a cycle in which the host is at the head of its program. `cmd` is 0 when nothing is offered
(DESIGN CHOICE, log 9); the block does not read it then (rule R114). -/
def hostPins (rst tick : Bool) (ops : List HostOp) : Pins :=
  match ops with
  | .offer w :: _ => ⟨rst, tick, true, w⟩
  | .wait :: _ => ⟨rst, tick, false, 0#32⟩
  | [] => ⟨rst, tick, false, 0#32⟩

/-- One cycle: the host drives the ports, and leaves the head of its program when it sees `cmd_ready = 1` in the cycle
before the edge. Until then the offer stays as it is (rule R268), and from the next cycle on it is gone (rule R269).
The host presents the next item of its program in that very next cycle, with no idle cycle between (DESIGN CHOICE, log
9): rule R269 lets it drop `cmd_valid` for a while instead. -/
def hostEdge (rst tick : Bool) (ops : List HostOp) (s : State) :
    List HostOp × Host.Outcome State Fault Refusal :=
  let offered : State := { s with inputs := hostPins rst tick ops :: s.inputs }
  (if offered.cmdReadyOut then ops.tail else ops, step offered)

/-- A run: one `(rst, tick)` pair per edge. It stops at the first refusal. -/
def hostRun : List (Bool × Bool) → List HostOp → State → List HostOp × Host.Outcome State Fault Refusal
  | [], ops, s => (ops, .next s)
  | (rst, tick) :: env, ops, s =>
    match hostEdge rst tick ops s with
    | (ops', .next t) => hostRun env ops' t
    | (ops', .fault r) => (ops', .fault r)
    | (ops', .refused r) => (ops', .refused r)

end Sys2Proof.Machine
end

