-- ==== Sys2Proof/Safety.lean ====
section
/-! DEFINITION. The terms claims use: the invariant of rule R128, runs that do not stop, the ticks and resets of a run's
inputs, and when two states differ in nothing that can be observed. -/

namespace Sys2Proof.Machine

/-- What every state reachable from reset satisfies. The first six fields are rule R128 clause by clause, and the last
two add what follows for a held command: only a non-empty word is captured and ERR is cleared with it (rule R115). -/
structure State.Inv (s : State) : Prop where
  /-- `BUSY = 1`: `CMD_R` holds a word that decodes. -/
  heldWordDecodes : s.busy = true → ∃ i, decode s.cmdR = .ok i
  /-- `BUSY = 1`: `POS <= N`. -/
  posWithinTrace : s.busy = true → ∀ p, proto s.cmdR = some p → s.pos.toNat ≤ traceLen p
  /-- `BUSY = 0`: `POS = 0`. -/
  posZeroWhenNotBusy : s.busy = false → s.pos = 0#6
  /-- `ERR_CODE` is not 11. -/
  errCodeProduced : s.errCode ≠ 0b11#2
  /-- `ERR = 1` exactly when `ERR_CODE != 00`. -/
  errIffCode : s.err = true ↔ s.errCode ≠ 0b00#2
  /-- `DONE` and `BUSY` are never 1 together. -/
  doneNotBusy : s.done = true → s.busy = false
  /-- `BUSY = 1`: LEN of `CMD_R` is not 0. -/
  heldWordNonEmpty : s.busy = true → lenField s.cmdR ≠ 0#5
  /-- `BUSY = 1`: `ERR = 0`. -/
  noErrorWhilePlaying : s.busy = true → s.err = false

/-- `k` rising edges, stopping at the first refusal. -/
def runSteps (k : Nat) (s : State) : Host.Outcome State Fault Refusal := Sys2Proof.core.run k s

/-- A run of `k` edges that does not stop. -/
def SafeRun (k : Nat) (s : State) : Prop := ∃ t, runSteps k s = .next t

/-- No reset edge among the next `k` edges. -/
def State.noResetFor (s : State) (k : Nat) : Prop := ∀ j < k, (s.pinsAt j).rst = false

/-- The number of ticks among the next `k` edges. -/
def State.ticksIn (s : State) : Nat → Nat
  | 0 => 0
  | k + 1 => s.ticksIn k + (s.pinsAt k).tick.toNat

/-- Two states that differ at most in a `CMD_R` that is not being played (rule R262). -/
structure SameButIdleCmdR (s t : State) : Prop where
  busy : s.busy = t.busy
  pos : s.pos = t.pos
  err : s.err = t.err
  errCode : s.errCode = t.errCode
  done : s.done = t.done
  inputs : s.inputs = t.inputs
  unscripted : s.unscripted = t.unscripted
  cmdR : s.busy = true → s.cmdR = t.cmdR

end Sys2Proof.Machine
end

