-- ==== Sys2Proof/Certificates/Slice0/Obligations.lean ====
section
/-! DEFINITION. The statements for the provers. Each docstring names the rules the statement formalises, and says where a
rule is one the spec itself marks as derived or as its reading of the source, or where a choice of the model is meant. -/

open Sys2Proof Sys2Proof.Machine

/-! ## Encoding and decoding -/

/-- Words of the spec's own examples (rule R86; 95_test_vectors.md A1 to A3, A7, A9, A11, A12) decode to the commands
they stand for, or are rejected. That a word with LEN = 0 decodes to its row's command is log 10 (DEDUCED). -/
def Obligations.SpecWordsDecode : Prop :=
  decode 0x0008B500#32 = .ok (.uart 8#5 0xB500#16) ∧
  decode 0x0108B500#32 = .ok (.spi 8#5 0xB500#16) ∧
  decode 0x020FA14A#32 = .ok (.i2c 15#5 0xA14A#16) ∧
  decode 0x0100FFFF#32 = .ok (.spi 0#5 0xFFFF#16) ∧
  decode 0x03080000#32 = .error .reservedProto ∧
  decode 0x40080000#32 = .error .reservedHi ∧
  decode 0x00280000#32 = .error .reservedLo

/-- Decoding undoes encoding for every command, and encoding undoes decoding for every word that decodes: no operand
bit is dropped, and no two words stand for one command (rules R70, R81, R86). -/
def Obligations.DecodeInvertsEncode : Prop :=
  (∀ i : Instr, decode (encode i) = .ok i) ∧
  (∀ (w : Word) (i : Instr), decode w = .ok i → encode i = w)

/-- Rule R81, with masks and match values written out, for the model's decoder and for the spec's own three-way
`decode`, which is `classify` here. That the decoder answers a row's command also for LEN = 0, where R81's `decode`
answers EMPTY, is the model's reading (DEDUCED, log 10). A word matches at most one row because the match values
differ. -/
def Obligations.DecodeFollowsOpcodeTable : Prop :=
  ∀ w : Word,
    ((∃ l d, decode w = .ok (.uart l d)) ↔ w &&& 0xFFE00000#32 = 0x00000000#32) ∧
    ((∃ l d, decode w = .ok (.spi l d)) ↔ w &&& 0xFFE00000#32 = 0x01000000#32) ∧
    ((∃ l d, decode w = .ok (.i2c l d)) ↔ w &&& 0xFFE00000#32 = 0x02000000#32) ∧
    (∀ i, decode w = .ok i →
      i.len.toNat = w.toNat / 2 ^ 16 % 2 ^ 5 ∧ i.payload.toNat = w.toNat % 2 ^ 16) ∧
    ((∃ e, decode w = .error e) ↔
      (w.toNat / 2 ^ 26 ≠ 0 ∨ w.toNat / 2 ^ 21 % 2 ^ 3 ≠ 0 ∨ w.toNat / 2 ^ 24 % 2 ^ 2 = 3)) ∧
    (classify w = .illegal ↔
      (w.toNat / 2 ^ 26 ≠ 0 ∨ w.toNat / 2 ^ 21 % 2 ^ 3 ≠ 0 ∨ w.toNat / 2 ^ 24 % 2 ^ 2 = 3)) ∧
    (∀ p m, (p, m) ∈ [(Protocol.uart, 0x00000000#32), (.spi, 0x01000000#32), (.i2c, 0x02000000#32)] →
      (classify w = .empty p ↔ w &&& 0xFFE00000#32 = m ∧ w.toNat / 2 ^ 16 % 2 ^ 5 = 0) ∧
      (∀ b, classify w = .enc p b ↔
        w &&& 0xFFE00000#32 = m ∧ w.toNat / 2 ^ 16 % 2 ^ 5 ≠ 0 ∧ b = bits w))

/-- The assembler (rules R85, R86): a command line with operands in range gives the one word of the formula `(PROTO <<
24) | (len << 16) | payload`, one with an operand out of range is refused, and a raw 32-bit word is emitted unchanged.
-/
def Obligations.AssemblerEncodesOrRefuses : Prop :=
  ∀ (ts : List Char) (p : Protocol) (code : Nat) (len payload : Nat) (w : Word),
    (p, code) ∈ [(Protocol.uart, 0), (.spi, 1), (.i2c, 2)] →
    (len ≤ 31 → payload ≤ 0xFFFF →
      assembleLine ts (.command ⟨p, len, payload⟩)
        = .ok [.offer (BitVec.ofNat 32 ((code <<< 24) ||| (len <<< 16) ||| payload))]) ∧
    (31 < len ∨ 0xFFFF < payload →
      assembleLine ts (.command ⟨p, len, payload⟩) = .error .operandRange) ∧
    assembleLine ts (.word w.toNat) = .ok [.offer w]

/-! ## Operand assembly -/

/-- Rule R79, derived in the spec: `fit(n, bits(CMD))` element by element, for `n <= 16`. -/
def Obligations.PaddedElementsInClosedForm : Prop :=
  ∀ (w : Word) (n i : Nat), n ≤ 16 → i < n →
    (fit n (bits w))[i]? =
      some (if i < w.toNat / 2 ^ 16 % 2 ^ 5 then w.toNat.testBit (15 - i) else false)

/-- Rule R110: two legal, non-empty words of one protocol that agree in LEN up to 15 and in the payload elements below
it have the same trace. -/
def Obligations.IgnoredBitsChangeNoTrace : Prop :=
  ∀ (w w' : Word) (p : Protocol) (b b' : BitSequence),
    classify w = .enc p b → classify w' = .enc p b' →
    min (lenField w).toNat 15 = min (lenField w').toNat 15 →
    (∀ i < min (lenField w).toNat 15, w.getLsbD (15 - i) = w'.getLsbD (15 - i)) →
    trace w = trace w'

/-- Rule R101: an empty payload has no trace, a word's payload is empty exactly when LEN = 0, and a command with an
empty payload raises EMPTY. No other payload fails. -/
def Obligations.EmptyPayloadHasNoTrace : Prop :=
  (∀ p, encodeTrace p [] = .error .emptyPayload) ∧
  (∀ w : Word, (bits w = [] ↔ w.toNat / 2 ^ 16 % 2 ^ 5 = 0) ∧ (bits w = [] → trace w = none)) ∧
  (∀ (i : Instr) (s : State), s.busy = false → bits (encode i) = [] →
    exec i s = .next { s with err := true, errCode := 0b01#2, done := false }) ∧
  (∀ (p : Protocol) (b : BitSequence), b ≠ [] → ∃ tr, encodeTrace p b = .ok tr)

/-- Rule R112, derived in the spec: truncation to 16 or 15 elements changes no trace, nor to 8 for UART and SPI. -/
def Obligations.TruncationChangesNoTrace : Prop :=
  ∀ b : BitSequence, b ≠ [] →
    (∀ p, encodeTrace p (b.take 16) = encodeTrace p b ∧ encodeTrace p (b.take 15) = encodeTrace p b) ∧
    encodeTrace .uart (b.take 8) = encodeTrace .uart b ∧
    encodeTrace .spi (b.take 8) = encodeTrace .spi b

/-! ## Traces -/

/-- Rule R106, and rules R107 and R109, derived in the spec: the Signals of a trace set in order, each of the
protocol's own length. -/
def Obligations.TraceSetsHaveTheirShape : Prop :=
  ∀ (p : Protocol) (b : BitSequence) (names : List String) (n : Nat), b ≠ [] →
    (p, names, n) ∈
      [(Protocol.uart, ["TX"], 12), (.spi, ["SS", "SCLK", "MOSI"], 20), (.i2c, ["SCL", "SDA"], 44)] →
    traceLen p = n ∧
    ∃ tr, encodeTrace p b = .ok tr ∧ tr.protocol = p ∧ tr.signals.map (fun sig => sig.name.text) = names ∧
      ∀ sig ∈ tr.signals, sig.levels.length = n

/-- Rules R141 and R144: the framing levels, for every payload, and the data samples in reverse order. -/
def Obligations.UartFramingAndDataOrder : Prop :=
  ∀ b : BitSequence, b ≠ [] →
    ∃ tx, encodeTrace .uart b = .ok ⟨.uart, [⟨.tx, tx⟩]⟩ ∧ tx.length = 12 ∧
      tx[0]? = some true ∧ tx[1]? = some false ∧ tx[10]? = some true ∧ tx[11]? = some true ∧
      ∀ j < 8, tx[2 + j]? = (fit 8 b)[7 - j]? ∧ tx[2 + j]? = some (b.getD (7 - j) false)

/-- Rules R163 and R164: SS and SCLK sample by sample, for every payload. SCLK while SS is high is decision D20. -/
def Obligations.SpiSelectAndClock : Prop :=
  ∀ b : BitSequence, b ≠ [] →
    ∃ ss sclk mosi, encodeTrace .spi b = .ok ⟨.spi, [⟨.ss, ss⟩, ⟨.sclk, sclk⟩, ⟨.mosi, mosi⟩]⟩ ∧
      (∀ n < 20, ss[n]? = some (decide (n < 2 ∨ 18 ≤ n))) ∧
      (∀ n < 20, sclk[n]? = some (decide (2 ≤ n ∧ n < 18 ∧ n % 2 = 1)))

/-- Rules R169 and R170, derived in the spec: SCLK has exactly 8 rising and 8 falling edges, all rising edges while SS
is low; MOSI changes only where SCLK falls; and a receiver that samples MOSI at the rising edges reads the 8 elements
in order. That order is decision D15's reading of the source (rule R162). MOSI holds still at samples 1 to 3, 18 and
19 because of decision D19's levels while SS is high. -/
def Obligations.SpiModeZeroContract : Prop :=
  ∀ b : BitSequence, b ≠ [] →
    ∃ ss sclk mosi, encodeTrace .spi b = .ok ⟨.spi, [⟨.ss, ss⟩, ⟨.sclk, sclk⟩, ⟨.mosi, mosi⟩]⟩ ∧
      (∀ n, 1 ≤ n → n < 20 →
        ((sclk[n - 1]? = some false ∧ sclk[n]? = some true) ↔ n ∈ [3, 5, 7, 9, 11, 13, 15, 17]) ∧
        ((sclk[n - 1]? = some true ∧ sclk[n]? = some false) ↔ n ∈ [4, 6, 8, 10, 12, 14, 16, 18]) ∧
        (sclk[n - 1]? = some false ∧ sclk[n]? = some true → ss[n - 1]? = some false ∧ ss[n]? = some false) ∧
        (mosi[n]? ≠ mosi[n - 1]? →
          n ∈ [4, 6, 8, 10, 12, 14, 16] ∧ sclk[n - 1]? = some true ∧ sclk[n]? = some false)) ∧
      (∀ j < 8, mosi[2 + 2 * j]? = some (b.getD j false) ∧ mosi[3 + 2 * j]? = some (b.getD j false)) ∧
      ([3, 5, 7, 9, 11, 13, 15, 17].map (fun n => mosi.getD n false)) = fit 8 b

/-- Rules R185 and R186, with the sequence `q` as the text of rule R183 builds it: SCL and SDA sample by sample. -/
def Obligations.I2cClockAndDataLevels : Prop :=
  ∀ b : BitSequence, b ≠ [] →
    let q : BitSequence := fit 7 (slice b 0 7) ++ [false] ++ [false] ++ fit 8 (slice b 7 15) ++ [false]
    ∃ scl sda, encodeTrace .i2c b = .ok ⟨.i2c, [⟨.scl, scl⟩, ⟨.sda, sda⟩]⟩ ∧
      (∀ n ∈ [0, 1, 2, 3, 40, 41, 42, 43], scl[n]? = some true) ∧
      (∀ i < 18, scl[4 + 2 * i]? = some false ∧ scl[5 + 2 * i]? = some true) ∧
      (∀ n ∈ [0, 1, 42, 43], sda[n]? = some true) ∧
      sda[2]? = some true ∧ sda[3]? = some false ∧
      (∀ i < 18, q[i]?.isSome ∧ sda[4 + 2 * i]? = q[i]? ∧ sda[5 + 2 * i]? = q[i]?) ∧
      sda[40]? = q[17]? ∧ sda[41]? = some true

/-- Rule R188, derived in the spec: SDA changes while SCL is high only at the Start (sample 3, a fall) and the Stop
(sample 41, a rise), and does at both for every payload; every other change falls on the low half of a bit slot; SDA
holds still in each bit slot. -/
def Obligations.I2cStartStopAndStability : Prop :=
  ∀ b : BitSequence, b ≠ [] →
    ∃ scl sda, encodeTrace .i2c b = .ok ⟨.i2c, [⟨.scl, scl⟩, ⟨.sda, sda⟩]⟩ ∧
      (sda[2]? = some true ∧ sda[3]? = some false ∧ scl[2]? = some true ∧ scl[3]? = some true) ∧
      (sda[40]? = some false ∧ sda[41]? = some true ∧ scl[40]? = some true ∧ scl[41]? = some true) ∧
      (∀ n, 1 ≤ n → n < 44 → sda[n]? ≠ sda[n - 1]? →
        (scl[n - 1]? = some true ∧ scl[n]? = some true → n = 3 ∨ n = 41) ∧
        (¬ (scl[n - 1]? = some true ∧ scl[n]? = some true) →
          n % 2 = 0 ∧ 4 ≤ n ∧ n ≤ 38 ∧ scl[n]? = some false)) ∧
      (∀ i < 18, sda[5 + 2 * i]? = sda[4 + 2 * i]?)

/-- Rules R181, R182 and R190, and rules R183 and R191, derived in the spec: the 18 bits at the rising SCL edges are
address, R/W = 0, ACK = 0, data, ACK = 0; the address byte on the wire is twice the address value and the second byte
is the data value. -/
def Obligations.I2cCarriesAddressAndData : Prop :=
  ∀ b : BitSequence, b ≠ [] →
    ∃ scl sda, encodeTrace .i2c b = .ok ⟨.i2c, [⟨.scl, scl⟩, ⟨.sda, sda⟩]⟩ ∧
      (∀ i < 7, sda[5 + 2 * i]? = some (b.getD i false)) ∧
      (∀ i ∈ [7, 8, 17], sda[5 + 2 * i]? = some false) ∧
      (∀ i < 8, sda[5 + 2 * (9 + i)]? = some (b.getD (7 + i) false)) ∧
      ((List.range 8).map (fun i => (sda.getD (5 + 2 * i) false).toNat * 2 ^ (7 - i))).sum
        = 2 * ((List.range 7).map (fun i => (b.getD i false).toNat * 2 ^ (6 - i))).sum ∧
      ((List.range 8).map (fun i => (sda.getD (5 + 2 * (9 + i)) false).toNat * 2 ^ (7 - i))).sum
        = ((List.range 8).map (fun i => (b.getD (7 + i) false).toNat * 2 ^ (7 - i))).sum

/-- Rules R146, R168 and R189: the role of every slot, written out, and no role past the last slot; and the level in
each slot is the bit its role names, of the byte, address or data sent, in both halves of an SPI or I²C bit slot. The
byte views (rules R145 and R191) are derived in the spec, and the order of the SPI bits is decision D15. -/
def Obligations.SlotRolesNameTheBits : Prop :=
  (∀ k, uartRole k =
    ([.idle, .start, .data 0, .data 1, .data 2, .data 3, .data 4, .data 5, .data 6, .data 7, .stop, .idle] :
      List SlotRole)[k]?) ∧
  (∀ k, spiRole k =
    ([.idle, .data 7, .data 6, .data 5, .data 4, .data 3, .data 2, .data 1, .data 0, .idle] : List SlotRole)[k]?) ∧
  (∀ k, i2cRole k =
    ([.idle, .start, .addr 6, .addr 5, .addr 4, .addr 3, .addr 2, .addr 1, .addr 0, .rw, .ack,
      .data 7, .data 6, .data 5, .data 4, .data 3, .data 2, .data 1, .data 0, .ack, .stop, .idle] :
      List SlotRole)[k]?) ∧
  ∀ b : BitSequence, b ≠ [] →
    seqValue (fit 8 b) = ((List.range 8).map (fun i => (b.getD i false).toNat * 2 ^ (7 - i))).sum ∧
    seqValue (fit 7 b) = ((List.range 7).map (fun i => (b.getD i false).toNat * 2 ^ (6 - i))).sum ∧
    seqValue (fit 8 (b.drop 7)) = ((List.range 8).map (fun i => (b.getD (7 + i) false).toNat * 2 ^ (7 - i))).sum ∧
    (∃ tx, encodeTrace .uart b = .ok ⟨.uart, [⟨.tx, tx⟩]⟩ ∧
      ∀ k r, uartRole k = some r →
        (∀ j, r = .data j → tx[k]? = some ((seqValue (fit 8 b)).testBit j)) ∧
        (r = .idle ∨ r = .stop → tx[k]? = some true) ∧ (r = .start → tx[k]? = some false)) ∧
    (∃ ss sclk mosi, encodeTrace .spi b = .ok ⟨.spi, [⟨.ss, ss⟩, ⟨.sclk, sclk⟩, ⟨.mosi, mosi⟩]⟩ ∧
      ∀ k r h, spiRole k = some r → h < 2 →
        (∀ j, r = .data j → mosi[2 * k + h]? = some ((seqValue (fit 8 b)).testBit j) ∧
          ss[2 * k + h]? = some false ∧ sclk[2 * k + h]? = some (decide (h = 1))) ∧
        (r = .idle → ss[2 * k + h]? = some true ∧ sclk[2 * k + h]? = some false)) ∧
    (∃ scl sda, encodeTrace .i2c b = .ok ⟨.i2c, [⟨.scl, scl⟩, ⟨.sda, sda⟩]⟩ ∧
      ∀ k r h, i2cRole k = some r → h < 2 →
        (∀ j, r = .addr j → sda[2 * k + h]? = some ((seqValue (fit 7 b)).testBit j)) ∧
        (∀ j, r = .data j → sda[2 * k + h]? = some ((seqValue (fit 8 (b.drop 7))).testBit j)) ∧
        (r = .rw ∨ r = .ack → sda[2 * k + h]? = some false) ∧
        (r = .idle → sda[2 * k + h]? = some true) ∧
        (r = .start → sda[2 * k + h]? = some (decide (h = 0))) ∧
        (r = .stop → sda[2 * k + h]? = some (decide (h = 1))) ∧
        (scl[2 * k + h]? = some (decide (r = .idle ∨ r = .start ∨ r = .stop ∨ h = 1))))

/-! ## What a command does when it is offered -/

/-- A command with LEN from 1 to 31 offered to a block that is not busy starts: the whole next state, for each of the
three commands, with the captured word by the formula of rule R86 (rules R115, R119, R140, R160, R180). -/
def Obligations.LegalCommandStarts : Prop :=
  ∀ (l : BitVec 5) (d : BitVec 16) (s : State), s.busy = false → l ≠ 0#5 →
    exec (.uart l d) s = .next { s with
      cmdR := BitVec.ofNat 32 (0 * 2 ^ 24 + l.toNat * 2 ^ 16 + d.toNat), busy := true, pos := 0#6,
      err := false, errCode := 0b00#2, done := false } ∧
    exec (.spi l d) s = .next { s with
      cmdR := BitVec.ofNat 32 (1 * 2 ^ 24 + l.toNat * 2 ^ 16 + d.toNat), busy := true, pos := 0#6,
      err := false, errCode := 0b00#2, done := false } ∧
    exec (.i2c l d) s = .next { s with
      cmdR := BitVec.ofNat 32 (2 * 2 ^ 24 + l.toNat * 2 ^ 16 + d.toNat), busy := true, pos := 0#6,
      err := false, errCode := 0b00#2, done := false }

/-- A command with LEN = 0 offered to a block that is not busy records EMPTY and changes nothing else, whichever its
protocol and payload (rules R234, R235). -/
def Obligations.EmptyCommandRecordsEmpty : Prop :=
  ∀ (d : BitVec 16) (s : State), s.busy = false →
    exec (.uart 0#5 d) s = .next { s with err := true, errCode := 0b01#2, done := false } ∧
    exec (.spi 0#5 d) s = .next { s with err := true, errCode := 0b01#2, done := false } ∧
    exec (.i2c 0#5 d) s = .next { s with err := true, errCode := 0b01#2, done := false }

/-- A command offered while the block is busy waits: nothing of it happens (rule R122). That `exec` is total over
states and answers the state unchanged there is the model's choice (DESIGN CHOICE, log 5). -/
def Obligations.CommandWaitsWhileBusy : Prop :=
  ∀ (l : BitVec 5) (d : BitVec 16) (s : State), s.busy = true →
    exec (.uart l d) s = .next s ∧ exec (.spi l d) s = .next s ∧ exec (.i2c l d) s = .next s

/-! ## The step -/

/-- When the word on `cmd` decodes and the block takes it, a step is `exec` of the decoded command, in the state whose
current cycle of inputs is used up (rules R113, R115). -/
def Obligations.StepRunsTheDecodedCommand : Prop :=
  ∀ (s : State) (i : Instr), s.Inv → s.pins.rst = false → s.busy = false → s.pins.cmdValid = true →
    decode s.pins.cmd = .ok i → step s = exec i s.nextCycle

/-- The word `withFetchWord` places is the one the next step takes: the model's own convention (DESIGN CHOICE, log 4).
-/
def Obligations.FetchedWordRunsNext : Prop :=
  ∀ (s : State) (w : Nat) (i : Instr), s.Inv → decodeTableWord 32 w = some i →
    step (s.withFetchWord 32 w) = exec i { s with busy := false, pos := 0#6 }

/-- A step uses up exactly one cycle of inputs: the model's own fields (DESIGN CHOICE, log 1). -/
def Obligations.StepUsesOneCycleOfInputs : Prop :=
  ∀ s t : State, step s = .next t →
    t.inputs = s.inputs.tail ∧ t.unscripted = s.unscripted + (if s.inputs = [] then 1 else 0)

/-- The whole next-state function of rule R114, and the reset action of rule R260 it begins with. -/
def Obligations.StepIsTheNextStateFunction : Prop :=
  ∀ s : State, s.Inv →
    step s = .next (
      if s.pins.rst = true then
        { s.nextCycle with
          cmdR := 0#32, busy := false, pos := 0#6, err := false, errCode := 0b00#2, done := false }
      else if s.busy = false then
        if s.pins.cmdValid = true then
          match classify s.pins.cmd with
          | .illegal => { s.nextCycle with done := false, err := true, errCode := 0b10#2 }
          | .empty _ => { s.nextCycle with done := false, err := true, errCode := 0b01#2 }
          | .enc _ _ => { s.nextCycle with
              done := false, cmdR := s.pins.cmd, busy := true, pos := 0#6, err := false, errCode := 0b00#2 }
        else { s.nextCycle with done := false }
      else if s.pins.tick = true then
        if s.pos.toNat < (match proto s.cmdR with
          | some .uart => 12
          | some .spi => 20
          | some .i2c => 44
          | none => 0) then
          { s.nextCycle with done := false, pos := s.pos + 1#6 }
        else { s.nextCycle with busy := false, pos := 0#6, done := true }
      else { s.nextCycle with done := false })

/-- Rules R260, R261 and R263: a reset edge gives every register its reset value from any state at all, whatever the
other inputs; no word is taken in its cycle; and the lines are idle after it. That it does so even from a state that
rule R128 refuses is the model's reading (DEDUCED, log 2). -/
def Obligations.ResetEdgeClearsEverything : Prop :=
  ∀ s : State, s.pins.rst = true →
    s.cmdReadyOut = false ∧
    ∃ t, step s = .next t ∧
      t = { s.nextCycle with
        cmdR := 0#32, busy := false, pos := 0#6, err := false, errCode := 0b00#2, done := false } ∧
      t.lines = some ⟨true, true, false, false, true, true⟩ ∧ t.Inv

/-- Rule R115: a legal, non-empty word on `cmd` is captured whole, and the lines stay idle until the first tick,
however late it comes; an erroneous word is recorded and BUSY stays 0; the block is ready in the cycle before,
whichever it is. -/
def Obligations.AcceptanceCapturesTheWord : Prop :=
  ∀ s : State, s.Inv → s.pins.rst = false → s.busy = false → s.pins.cmdValid = true →
    s.cmdReadyOut = true ∧
    (∀ p b, classify s.pins.cmd = .enc p b → ∃ t, step s = .next t ∧
      t = { s.nextCycle with
        cmdR := s.pins.cmd, busy := true, pos := 0#6, err := false, errCode := 0b00#2, done := false } ∧
      ∀ k, t.noResetFor k → t.ticksIn k = 0 →
        ∃ u, runSteps k t = .next u ∧ u.busy = true ∧ u.lines = some ⟨true, true, false, false, true, true⟩) ∧
    (classify s.pins.cmd = .illegal →
      step s = .next { s.nextCycle with busy := false, err := true, errCode := 0b10#2, done := false }) ∧
    (∀ p, classify s.pins.cmd = .empty p →
      step s = .next { s.nextCycle with busy := false, err := true, errCode := 0b01#2, done := false })

/-- Rules R233 to R236: a word with a reserved bit set or PROTO = 11 records ILLEGAL, whatever its LEN; another word
with LEN = 0 records EMPTY; nothing else changes, no line moves, and the word counts as taken. -/
def Obligations.ErrorIsRecordedAndPlaysNothing : Prop :=
  ∀ s : State, s.Inv → s.pins.rst = false → s.busy = false → s.pins.cmdValid = true →
    let w := s.pins.cmd.toNat
    let illegal : Prop := w / 2 ^ 26 ≠ 0 ∨ w / 2 ^ 21 % 2 ^ 3 ≠ 0 ∨ w / 2 ^ 24 % 2 ^ 2 = 3
    (illegal → step s = .next { s.nextCycle with err := true, errCode := 0b10#2, done := false }) ∧
    (¬ illegal → w / 2 ^ 16 % 2 ^ 5 = 0 →
      step s = .next { s.nextCycle with err := true, errCode := 0b01#2, done := false }) ∧
    (illegal ∨ w / 2 ^ 16 % 2 ^ 5 = 0 → s.cmdReadyOut = true ∧
      ∀ t, step s = .next t → t.lines = some ⟨true, true, false, false, true, true⟩)

/-- Rule R116, with rule R26's bound, derived in the spec: a tick before the end of the trace adds 1 to POS, which
never wraps, and each line of the protocol then shows the sample of the new POS. -/
def Obligations.AdvanceShowsTheNextSample : Prop :=
  ∀ (s : State) (p : Protocol), s.Inv → s.pins.rst = false → s.busy = true → s.pins.tick = true →
    proto s.cmdR = some p → s.pos.toNat < traceLen p →
    ∃ t, step s = .next t ∧ t = { s.nextCycle with pos := s.pos + 1#6, done := false } ∧
      t.pos.toNat = s.pos.toNat + 1 ∧
      ∀ n : SignalName, n.protocol = p →
        t.line n = sample s.cmdR n s.pos.toNat ∧ ∃ v, sample s.cmdR n s.pos.toNat = some v

/-- Rule R117: a tick at the end of the trace completes the command, and the lines are idle. -/
def Obligations.CompletionPulsesDone : Prop :=
  ∀ (s : State) (p : Protocol), s.Inv → s.pins.rst = false → s.busy = true → s.pins.tick = true →
    proto s.cmdR = some p → s.pos.toNat = traceLen p →
    ∃ t, step s = .next t ∧ t = { s.nextCycle with busy := false, pos := 0#6, done := true } ∧
      t.lines = some ⟨true, true, false, false, true, true⟩

/-- Rule R118: with no reset, no acceptance and no tick while busy, every register but DONE keeps its value, and the
lines keep theirs. A busy block with no tick and no reset stays busy with the same sample on its lines for any number
of edges, whatever is offered. -/
def Obligations.HoldKeepsRegistersAndLines : Prop :=
  (∀ s : State, s.Inv → s.pins.rst = false →
    (s.busy = true ∧ s.pins.tick = false) ∨ (s.busy = false ∧ s.pins.cmdValid = false) →
    ∃ t, step s = .next t ∧ t = { s.nextCycle with done := false } ∧ t.lines = s.lines) ∧
  (∀ (s : State) (k : Nat), s.Inv → s.busy = true → s.noResetFor k → s.ticksIn k = 0 →
    ∃ t, runSteps k s = .next t ∧ t.busy = true ∧ t.pos = s.pos ∧ t.cmdR = s.cmdR ∧ t.err = s.err ∧
      t.errCode = s.errCode ∧ t.lines = s.lines)

/-- Rule R29: DONE is 1 after an edge exactly when that edge completed a command, and then not after the next edge. -/
def Obligations.DoneIsAOneCyclePulse : Prop :=
  ∀ s t : State, s.Inv → step s = .next t →
    (t.done = true ↔ s.pins.rst = false ∧ s.busy = true ∧ s.pins.tick = true ∧
      ∃ p, proto s.cmdR = some p ∧ s.pos.toNat = traceLen p) ∧
    (t.done = true → ∀ u, step t = .next u → u.done = false)

/-- Rule R25: BUSY is 1 after an edge exactly when the edge accepted a legal, non-empty command, or BUSY was 1 and the
edge neither completed the command nor reset the block. -/
def Obligations.BusyFromAcceptanceToCompletion : Prop :=
  ∀ s t : State, s.Inv → step s = .next t →
    (t.busy = true ↔ s.pins.rst = false ∧
      ((s.busy = false ∧ s.pins.cmdValid = true ∧ ∃ p b, classify s.pins.cmd = .enc p b) ∨
       (s.busy = true ∧ ¬ (s.pins.tick = true ∧ ∃ p, proto s.cmdR = some p ∧ s.pos.toNat = traceLen p))))

/-- Rule R24: CMD_R changes only at an edge that accepts a legal, non-empty command, which writes the whole word, or
at a reset edge. -/
def Obligations.CmdRIsWrittenOnlyByAcceptance : Prop :=
  ∀ s t : State, s.Inv → step s = .next t →
    (s.pins.rst = true → t.cmdR = 0#32) ∧
    (s.pins.rst = false → s.busy = false → s.pins.cmdValid = true →
      (∃ p b, classify s.pins.cmd = .enc p b) → t.cmdR = s.pins.cmd) ∧
    (s.pins.rst = false →
      ¬ (s.busy = false ∧ s.pins.cmdValid = true ∧ ∃ p b, classify s.pins.cmd = .enc p b) → t.cmdR = s.cmdR)

/-- Rule R27, and what rule R28 says of ERR_CODE's writes: both are written at every acceptance and at reset, and at
no other time. -/
def Obligations.ErrorStatusIsWrittenOnlyByAcceptance : Prop :=
  ∀ s t : State, s.Inv → step s = .next t →
    (s.pins.rst = true → t.err = false ∧ t.errCode = 0b00#2) ∧
    (s.pins.rst = false → s.busy = false → s.pins.cmdValid = true →
      (classify s.pins.cmd = .illegal → t.err = true ∧ t.errCode = 0b10#2) ∧
      (∀ p, classify s.pins.cmd = .empty p → t.err = true ∧ t.errCode = 0b01#2) ∧
      (∀ p b, classify s.pins.cmd = .enc p b → t.err = false ∧ t.errCode = 0b00#2)) ∧
    (s.pins.rst = false → ¬ (s.busy = false ∧ s.pins.cmdValid = true) → t.err = s.err ∧ t.errCode = s.errCode)

/-- Rule R30: `cmd_ready` is 1 exactly when the block is neither busy nor in reset; a word is taken at an edge exactly
when it is offered and the block is ready. When it is not taken, nothing depends on what stands on `cmd`. -/
def Obligations.OfferIsTakenExactlyWhenReady : Prop :=
  ∀ (s : State) (p : Pins) (rest : List Pins), s.Inv → s.inputs = p :: rest →
    (s.cmdReadyOut = true ↔ s.busy = false ∧ p.rst = false) ∧
    (p.cmdValid = true → s.cmdReadyOut = true → step s = acceptEdge p.cmd { s with inputs := rest }) ∧
    (s.cmdReadyOut = false → ∀ v w,
      step { s with inputs := { p with cmdValid := v, cmd := w } :: rest } = step s) ∧
    (p.cmdValid = false → ∀ w, step { s with inputs := { p with cmd := w } :: rest } = step s)

/-- Rule R113: a tick is ignored at every edge at which the block is not busy, the accepting edge among them. -/
def Obligations.TickIsIgnoredWhenNotBusy : Prop :=
  ∀ (s : State) (p : Pins) (rest : List Pins) (b : Bool), s.inputs = p :: rest → s.busy = false →
    step { s with inputs := { p with tick := b } :: rest } = step s

/-! ## Outputs -/

/-- Rules R31 to R34: the status outputs show the registers. -/
def Obligations.StatusOutputsShowRegisters : Prop :=
  ∀ s : State, s.status.busy = s.busy ∧ s.status.done = s.done ∧ s.status.err = s.err ∧
    s.status.errCode = s.errCode ∧ s.status.cmdReady = (!s.busy && !s.pins.rst)

/-- Rule R125: every line shows its idle level when the block is not busy and when POS = 0, and the lines of the two
protocols not being played show theirs at all times. -/
def Obligations.LinesIdleUnlessPlaying : Prop :=
  ∀ s : State, s.Inv →
    (s.busy = false ∨ s.pos = 0#6 → s.lines = some ⟨true, true, false, false, true, true⟩) ∧
    ∃ l, s.lines = some l ∧
      (proto s.cmdR ≠ some .uart → l.uartTx = true) ∧
      (proto s.cmdR ≠ some .spi → l.spiSsN = true ∧ l.spiSclk = false ∧ l.spiMosi = false) ∧
      (proto s.cmdR ≠ some .i2c → l.i2cScl = true ∧ l.i2cSda = true)

/-- Rule R123 with rule R143, derived in the spec: the lines while a UART command plays, sample `k = POS - 1`, for
every POS. -/
def Obligations.UartLinesShowTheFrame : Prop :=
  ∀ (s : State) (k : Nat), s.Inv → s.busy = true → proto s.cmdR = some .uart → s.pos.toNat = k + 1 →
    s.lines = some
      { uartTx :=
          if k = 0 then true else if k = 1 then false else if k ≤ 9 then e16 s.cmdR (9 - k) else true
        spiSsN := true, spiSclk := false, spiMosi := false, i2cScl := true, i2cSda := true }

/-- Rule R123 with rule R166, derived in the spec: the lines while an SPI command plays, sample `k = POS - 1`, for
every POS. MOSI in slots 0 and 9 is decision D19's level. -/
def Obligations.SpiLinesShowTheTransfer : Prop :=
  ∀ (s : State) (k : Nat), s.Inv → s.busy = true → proto s.cmdR = some .spi → s.pos.toNat = k + 1 →
    s.lines = some
      { uartTx := true
        spiSsN := decide (k / 2 = 0 ∨ k / 2 = 9)
        spiSclk := if k / 2 = 0 ∨ k / 2 = 9 then false else decide (k % 2 = 1)
        spiMosi :=
          if k / 2 = 0 then e16 s.cmdR 0 else if k / 2 ≤ 8 then e16 s.cmdR (k / 2 - 1) else e16 s.cmdR 7
        i2cScl := true, i2cSda := true }

/-- Rule R123 with rules R183 and R187, derived in the spec: the lines while an I²C command plays, sample `k = POS -
1`, for every POS. -/
def Obligations.I2cLinesShowTheWrite : Prop :=
  ∀ (s : State) (k : Nat), s.Inv → s.busy = true → proto s.cmdR = some .i2c → s.pos.toNat = k + 1 →
    let q : Nat → Level := fun i =>
      if i ≤ 6 then e16 s.cmdR i else if 9 ≤ i ∧ i ≤ 16 then e16 s.cmdR (i - 2) else false
    s.lines = some
      { uartTx := true, spiSsN := true, spiSclk := false, spiMosi := false
        i2cScl := if k / 2 ∈ [0, 1, 20, 21] then true else decide (k % 2 = 1)
        i2cSda :=
          if k / 2 = 0 ∨ k / 2 = 21 then true
          else if k / 2 = 1 then decide (k % 2 = 0)
          else if k / 2 ≤ 19 then q (k / 2 - 2)
          else decide (k % 2 = 1) }

/-! ## Reset, the invariant and the states rule R128 excludes -/

/-- Rules R39 and R264: the registers right after reset, and the outputs then, which the spec derives. -/
def Obligations.ResetRegisterValues : Prop :=
  State.reset.cmdR = 0#32 ∧ State.reset.busy = false ∧ State.reset.pos = 0#6 ∧ State.reset.err = false ∧
  State.reset.errCode = 0b00#2 ∧ State.reset.done = false ∧
  State.reset.lines = some ⟨true, true, false, false, true, true⟩ ∧
  ∀ ins : List Pins, let s : State := { State.reset with inputs := ins }
    s.pins.rst = false → s.status = ⟨true, false, false, false, 0b00#2⟩

/-- The reset state meets the invariant, whatever inputs follow it. -/
def Obligations.ResetMeetsTheInvariant : Prop :=
  ∀ (ins : List Pins) (n : Nat), State.Inv { State.reset with inputs := ins, unscripted := n }

/-- Every step keeps the invariant. -/
def Obligations.StepKeepsTheInvariant : Prop :=
  ∀ s t : State, s.Inv → step s = .next t → t.Inv

/-- A state that meets the invariant never stops: the block has no halt, and every word on `cmd` has its effect (rules
R232, R238). -/
def Obligations.InvariantStatesAlwaysGoOn : Prop :=
  ∀ s : State, s.Inv → ∃ t, step s = .next t

/-- The refusal of rule R128: at an edge with `rst = 0` a step refuses exactly the states of the rule's list, written
out. That a reset edge does not refuse them is the model's reading (DEDUCED, log 2). -/
def Obligations.StepRefusesExactlyTheUnreachableStates : Prop :=
  ∀ s : State, (∃ why, step s = .refused why) ↔
    s.pins.rst = false ∧
    ((s.busy = true ∧
        (s.cmdR.toNat / 2 ^ 26 ≠ 0 ∨ s.cmdR.toNat / 2 ^ 21 % 2 ^ 3 ≠ 0 ∨ s.cmdR.toNat / 2 ^ 24 % 2 ^ 2 = 3)) ∨
     (s.busy = true ∧ ∃ p, proto s.cmdR = some p ∧ traceLen p < s.pos.toNat) ∨
     (s.busy = false ∧ s.pos ≠ 0#6) ∨
     s.errCode = 0b11#2 ∨
     (s.err = false ∧ s.errCode ≠ 0b00#2) ∨
     (s.err = true ∧ s.errCode = 0b00#2) ∨
     (s.done = true ∧ s.busy = true))

/-- Rule R128, derived in the spec: no run from the reset state, under any inputs whatever, stops or leaves the
invariant, which excludes every state of the rule's list. -/
def Obligations.NoRunFromResetLeavesTheInvariant : Prop :=
  ∀ (ins : List Pins) (n k : Nat),
    ∃ t, runSteps k { State.reset with inputs := ins, unscripted := n } = .next t ∧ t.Inv

/-! ## Runs -/

/-- Rules R126 and R127, derived in the spec: from the state an acceptance leaves, through any inputs without a reset,
the lines show sample `m - 1` of `encode(proto(CMD), bits(CMD))` after `m` ticks and until the next one, and their
idle levels before the first; the tick after the last sample completes the command and the lines are idle. -/
def Obligations.PlayedTraceIsTheEncodedTrace : Prop :=
  ∀ (s : State) (p : Protocol) (tr : SignalTraceSet) (k : Nat),
    s.Inv → s.busy = true → s.pos = 0#6 → proto s.cmdR = some p →
    encodeTrace p (bits s.cmdR) = .ok tr → s.noResetFor k →
    (s.ticksIn k ≤ traceLen p →
      ∃ t, runSteps k s = .next t ∧ t.cmdR = s.cmdR ∧ t.busy = true ∧ t.pos.toNat = s.ticksIn k ∧
        (∃ l, t.lines = some l) ∧
        ∀ n : SignalName, t.line n =
          if n.protocol = p ∧ 1 ≤ s.ticksIn k then (tr.levelsOf n).bind (fun l => l[s.ticksIn k - 1]?)
          else some n.idleLevel) ∧
    (s.ticksIn k = traceLen p → (s.pinsAt k).rst = false → (s.pinsAt k).tick = true →
      ∃ t, runSteps (k + 1) s = .next t ∧ t.cmdR = s.cmdR ∧ t.busy = false ∧ t.pos = 0#6 ∧ t.done = true ∧
        t.err = s.err ∧ t.errCode = s.errCode ∧ t.lines = some ⟨true, true, false, false, true, true⟩)

/-- Rules R121 and R276, derived in the spec: a legal command taken at an edge, with a tick at every later edge and no
reset, keeps the block busy for 13 (UART), 21 (SPI) or 45 (I²C) ticks, and the last of them completes it. -/
def Obligations.CommandCompletesInItsTickCount : Prop :=
  ∀ (s : State) (p : Protocol) (b : BitSequence) (n : Nat),
    (p, n) ∈ [(Protocol.uart, 13), (.spi, 21), (.i2c, 45)] →
    s.Inv → s.busy = false → s.pins.rst = false → s.pins.cmdValid = true → classify s.pins.cmd = .enc p b →
    (∀ j, 1 ≤ j → j ≤ n → (s.pinsAt j).rst = false ∧ (s.pinsAt j).tick = true) →
    (∀ j, 1 ≤ j → j ≤ n → ∃ t, runSteps j s = .next t ∧ t.busy = true ∧ t.done = false) ∧
    ∃ t, runSteps (n + 1) s = .next t ∧ t.busy = false ∧ t.done = true ∧ t.cmdR = s.pins.cmd

/-- Rules R57 and R122: while a command plays, two runs whose inputs differ only in what is offered on the command
port have the same registers, so the same outputs. -/
def Obligations.OfferedWordsDoNotDisturbATrace : Prop :=
  ∀ (s s' : State) (p : Protocol) (k : Nat),
    s.Inv → s.busy = true → proto s.cmdR = some p →
    s'.cmdR = s.cmdR → s'.busy = s.busy → s'.pos = s.pos → s'.err = s.err → s'.errCode = s.errCode →
    s'.done = s.done →
    (∀ j < k, (s'.pinsAt j).rst = (s.pinsAt j).rst ∧ (s'.pinsAt j).tick = (s.pinsAt j).tick) →
    s.noResetFor k → s.pos.toNat + s.ticksIn k ≤ traceLen p →
    ∃ t t', runSteps k s = .next t ∧ runSteps k s' = .next t' ∧
      t'.cmdR = t.cmdR ∧ t'.busy = t.busy ∧ t'.pos = t.pos ∧ t'.err = t.err ∧ t'.errCode = t.errCode ∧
      t'.done = t.done ∧ t'.lines = t.lines

/-- Rule R111: two blocks that are not busy, whatever command, error or pulse came before, take a legal command to one
and the same state when their inputs agree. -/
def Obligations.HistoryDoesNotReachATrace : Prop :=
  ∀ (s s' : State) (p : Protocol) (b : BitSequence),
    s.Inv → s'.Inv → s.busy = false → s'.busy = false → s'.inputs = s.inputs → s'.unscripted = s.unscripted →
    s.pins.rst = false → s.pins.cmdValid = true → classify s.pins.cmd = .enc p b →
    step s' = step s

/-- Rule R262, derived in the spec: the value of CMD_R while the block is not busy cannot be observed. Two states that
differ in it alone have the same outputs, and a step either refuses both for one reason or takes them to two such
states again. -/
def Obligations.IdleCmdRIsInvisible : Prop :=
  ∀ s s' : State, SameButIdleCmdR s s' →
    s.status = s'.status ∧ s.lines = s'.lines ∧
    ((∃ why, step s = .refused why ∧ step s' = .refused why) ∨
     (∃ t t', step s = .next t ∧ step s' = .next t' ∧ SameButIdleCmdR t t'))

/-! ## The host's side -/

/-- Rules R268 and R269: a host that runs a program holds its offer while the block is busy or in reset, and is past it
after the edge that takes it. That the host offers the head of its program at once is the model's choice (DESIGN CHOICE,
log 9). -/
def Obligations.HostHoldsItsOfferUntilTaken : Prop :=
  ∀ (s : State) (rst tick : Bool) (w : Word) (rest : List HostOp), s.Inv →
    (s.busy = true ∨ rst = true → (hostEdge rst tick (.offer w :: rest) s).1 = .offer w :: rest) ∧
    (s.busy = false → rst = false → hostEdge rst tick (.offer w :: rest) s = (rest, acceptEdge w s))

/-- Rule R217: the loader's fields, the BitSequence its word carries, and the trace of that word, which is the
encoder's own on the whole input. -/
def Obligations.LoaderCarriesThePayload : Prop :=
  ∀ (p : Protocol) (b : BitSequence), b ≠ [] →
    (loadLen b).toNat = min b.length 16 ∧
    (loadPayload b).toNat =
      ((List.range (min b.length 16)).map (fun i => (b.getD i false).toNat * 2 ^ (15 - i))).sum ∧
    bits (encode (loadCommand p b)) = b.take 16 ∧
    trace (encode (loadCommand p b)) = (encodeTrace p b).toOption

/-- Rule R211: trimming removes characters of the set from the two ends, all of them, and nothing else. -/
def Obligations.TrimRemovesOnlyTheEnds : Prop :=
  ∀ ts raw : List Char, ∃ a b, raw = a ++ trim ts raw ++ b ∧ (∀ c ∈ a, c ∈ ts) ∧ (∀ c ∈ b, c ∈ ts) ∧
    (∀ c, (trim ts raw).head? = some c → c ∉ ts) ∧ (∀ c, (trim ts raw).getLast? = some c → c ∉ ts)

/-- Rules R213 and R215: a trimmed string of `0` and `1` alone is read as binary, one element per character. -/
def Obligations.NormalizeReadsBinary : Prop :=
  ∀ ts raw : List Char, trim ts raw ≠ [] → (∀ c ∈ trim ts raw, c = '0' ∨ c = '1') →
    ∃ b, normalize ts raw = .ok b ∧ b.length = (trim ts raw).length ∧
      ∀ (i : Nat) (c : Char), (trim ts raw)[i]? = some c → b[i]? = some (decide (c = '1'))

/-- Rule R214: another trimmed string of hex digits gives 4 elements per digit, most significant first. -/
def Obligations.NormalizeReadsHex : Prop :=
  let value : List (Char × Nat) :=
    [('0', 0), ('1', 1), ('2', 2), ('3', 3), ('4', 4), ('5', 5), ('6', 6), ('7', 7), ('8', 8), ('9', 9),
     ('A', 10), ('B', 11), ('C', 12), ('D', 13), ('E', 14), ('F', 15),
     ('a', 10), ('b', 11), ('c', 12), ('d', 13), ('e', 14), ('f', 15)]
  ∀ ts raw : List Char, (∀ c ∈ trim ts raw, ∃ v, (c, v) ∈ value) → (∃ c ∈ trim ts raw, c ≠ '0' ∧ c ≠ '1') →
    ∃ b, normalize ts raw = .ok b ∧ b.length = 4 * (trim ts raw).length ∧
      ∀ (j : Nat) (c : Char) (v : Nat), (trim ts raw)[j]? = some c → (c, v) ∈ value →
        ∀ k < 4, b[4 * j + k]? = some (v.testBit (3 - k))

/-- Rules R212 and R216: an empty trimmed string fails, and so does one with a character that is no hex digit. -/
def Obligations.NormalizeRefusesTheRest : Prop :=
  let digits : List Char :=
    ['0', '1', '2', '3', '4', '5', '6', '7', '8', '9',
     'A', 'B', 'C', 'D', 'E', 'F', 'a', 'b', 'c', 'd', 'e', 'f']
  ∀ ts raw : List Char,
    (trim ts raw = [] → normalize ts raw = .error .emptyInput) ∧
    ((∃ c ∈ trim ts raw, c ∉ digits) → normalize ts raw = .error .neitherFormat)

/-- Rule R219, derived in the spec: a text that normalizes never gives an EMPTY command. -/
def Obligations.TextCommandsAreNeverEmpty : Prop :=
  ∀ (ts : List Char) (p : Protocol) (raw : List Char) (i : Instr),
    textCommand ts p raw = .ok i → i.len ≠ 0#5 ∧ i.protocol = p ∧ ∃ tr, trace (encode i) = some tr
end

