-- ==== Sys2Proof/Laws/Operands.lean ====
section
/-! SUPPORT. What sequences, fields and encoded words look like: one lemma per operation that later proofs cite. -/

namespace Sys2Proof.Machine

/-! ## Sequences -/

@[simp] theorem length_fit (n : Nat) (s : BitSequence) : (fit n s).length = n := by
  simp [fit]

theorem getElem_fit (n : Nat) (s : BitSequence) (i : Nat) (h : i < (fit n s).length) :
    (fit n s)[i] = s.getD i false := by
  simp only [length_fit] at h
  simp only [fit, List.getElem_take, List.getD_eq_getElem?_getD]
  by_cases hi : i < s.length
  · simp [List.getElem_append_left hi, List.getElem?_eq_getElem hi]
  · simp [List.getElem_append_right (Nat.le_of_not_lt hi), List.getElem?_eq_none (Nat.le_of_not_lt hi)]

theorem getD_slice (s : BitSequence) (a b i : Nat) (h : i < b - a) :
    (slice s a b).getD i false = s.getD (a + i) false := by
  simp [slice, List.getD_eq_getElem?_getD, h]

@[simp] theorem length_bits (w : Word) : (bits w).length = elementCount w := by simp [bits]

theorem getD_bits (w : Word) (i : Nat) (h : i < 16) : (bits w).getD i false = e16 w i := by
  by_cases hi : i < (lenField w).toNat
  · have : i < elementCount w := by simp only [elementCount]; omega
    simp [bits, List.getD_eq_getElem?_getD, List.getElem?_range this, e16, hi, payloadElement]
  · have : elementCount w ≤ i := by simp only [elementCount]; omega
    simp [bits, List.getD_eq_getElem?_getD, List.getElem?_eq_none (l := List.range _) (i := i) (by simpa using this),
      e16, hi]

theorem seqValue_append (a b : BitSequence) :
    seqValue (a ++ b) = seqValue a * 2 ^ b.length + seqValue b := by
  have key : ∀ (l : BitSequence) (n : Nat),
      l.foldl (fun n b => 2 * n + b.toNat) n = n * 2 ^ l.length + l.foldl (fun n b => 2 * n + b.toNat) 0 := by
    intro l
    induction l with
    | nil => simp
    | cons x l ih =>
      intro n
      rw [List.foldl_cons, List.foldl_cons, ih, ih (2 * 0 + x.toNat), List.length_cons, Nat.pow_succ]
      ring
  rw [seqValue, List.foldl_append, key]
  rfl

theorem seqValue_lt (s : BitSequence) : seqValue s < 2 ^ s.length := by
  induction s with
  | nil => simp [seqValue]
  | cons x s ih =>
    have := seqValue_append [x] s
    simp only [List.singleton_append] at this
    rw [this, List.length_cons, Nat.pow_succ]
    have hx : seqValue [x] ≤ 1 := by cases x <;> simp [seqValue]
    nlinarith [Nat.two_pow_pos s.length]

/-! ## Fields of an encoded word -/

/-- An or with a number below the shifted one is a sum. -/
theorem shifted_or_eq_add (a b n : Nat) (h : b < 2 ^ n) : a * 2 ^ n ||| b = a * 2 ^ n + b := by
  rw [Nat.mul_comm, ← Nat.two_pow_add_eq_or_of_lt h]

/-- The formula of rule R86, as a number. -/
theorem toNat_commandWord (p : Protocol) (l : BitVec 5) (d : BitVec 16) :
    (commandWord p l d).toNat = (protoCode p).toNat * 2 ^ 24 + l.toNat * 2 ^ 16 + d.toNat := by
  have hl := l.isLt
  have hd := d.isLt
  simp only [commandWord, BitVec.toNat_append, Nat.shiftLeft_eq, BitVec.toNat_ofNat]
  rw [shifted_or_eq_add _ _ _ hd, shifted_or_eq_add _ _ _ hl]
  simp only [Nat.zero_mod, Nat.or_zero, Nat.zero_or, Nat.zero_mul]
  ring

@[simp] theorem resHiField_commandWord (p : Protocol) (l : BitVec 5) (d : BitVec 16) :
    resHiField (commandWord p l d) = 0#6 := by
  have hl := l.isLt
  have hd := d.isLt
  apply BitVec.eq_of_toNat_eq
  simp only [resHiField, BitVec.extractLsb'_toNat, toNat_commandWord, Nat.shiftRight_eq_div_pow]
  cases p <;> simp [protoCode] <;> omega

@[simp] theorem resLoField_commandWord (p : Protocol) (l : BitVec 5) (d : BitVec 16) :
    resLoField (commandWord p l d) = 0#3 := by
  have hl := l.isLt
  have hd := d.isLt
  apply BitVec.eq_of_toNat_eq
  simp only [resLoField, BitVec.extractLsb'_toNat, toNat_commandWord, Nat.shiftRight_eq_div_pow]
  cases p <;> simp [protoCode] <;> omega

@[simp] theorem protoField_commandWord (p : Protocol) (l : BitVec 5) (d : BitVec 16) :
    protoField (commandWord p l d) = protoCode p := by
  have hl := l.isLt
  have hd := d.isLt
  apply BitVec.eq_of_toNat_eq
  simp only [protoField, BitVec.extractLsb'_toNat, toNat_commandWord, Nat.shiftRight_eq_div_pow]
  cases p <;> simp [protoCode] <;> omega

@[simp] theorem lenField_commandWord (p : Protocol) (l : BitVec 5) (d : BitVec 16) :
    lenField (commandWord p l d) = l := by
  have hl := l.isLt
  have hd := d.isLt
  apply BitVec.eq_of_toNat_eq
  simp only [lenField, BitVec.extractLsb'_toNat, toNat_commandWord, Nat.shiftRight_eq_div_pow]
  omega

@[simp] theorem payloadField_commandWord (p : Protocol) (l : BitVec 5) (d : BitVec 16) :
    payloadField (commandWord p l d) = d := by
  have hd := d.isLt
  apply BitVec.eq_of_toNat_eq
  simp only [payloadField, BitVec.extractLsb'_toNat, toNat_commandWord, Nat.shiftRight_eq_div_pow]
  omega

@[simp] theorem proto_commandWord (p : Protocol) (l : BitVec 5) (d : BitVec 16) :
    proto (commandWord p l d) = some p := by
  cases p <;> simp [proto, protoCode]

end Sys2Proof.Machine
end

