-- ==== Sys2Proof/Laws/State.lean ====
section
/-! SUPPORT. One lemma per field per register operation, each true by `rfl`, and the same for `nextCycle`. -/

namespace Sys2Proof.Machine

variable (s : State)

/-! ## `clearDone` -/

@[simp] theorem State.clearDone_cmdR : (s.clearDone).cmdR = s.cmdR := rfl
@[simp] theorem State.clearDone_busy : (s.clearDone).busy = s.busy := rfl
@[simp] theorem State.clearDone_pos : (s.clearDone).pos = s.pos := rfl
@[simp] theorem State.clearDone_err : (s.clearDone).err = s.err := rfl
@[simp] theorem State.clearDone_errCode : (s.clearDone).errCode = s.errCode := rfl
@[simp] theorem State.clearDone_done : (s.clearDone).done = false := rfl
@[simp] theorem State.clearDone_inputs : (s.clearDone).inputs = s.inputs := rfl
@[simp] theorem State.clearDone_unscripted : (s.clearDone).unscripted = s.unscripted := rfl

/-! ## `setErrorStatus` -/

@[simp] theorem State.setErrorStatus_cmdR (code : BitVec 2) : (s.setErrorStatus code).cmdR = s.cmdR := rfl
@[simp] theorem State.setErrorStatus_busy (code : BitVec 2) : (s.setErrorStatus code).busy = s.busy := rfl
@[simp] theorem State.setErrorStatus_pos (code : BitVec 2) : (s.setErrorStatus code).pos = s.pos := rfl
@[simp] theorem State.setErrorStatus_err (code : BitVec 2) : (s.setErrorStatus code).err = errOfCode code := rfl
@[simp] theorem State.setErrorStatus_errCode (code : BitVec 2) : (s.setErrorStatus code).errCode = code := rfl
@[simp] theorem State.setErrorStatus_done (code : BitVec 2) : (s.setErrorStatus code).done = s.done := rfl
@[simp] theorem State.setErrorStatus_inputs (code : BitVec 2) : (s.setErrorStatus code).inputs = s.inputs := rfl
@[simp] theorem State.setErrorStatus_unscripted (code : BitVec 2) : (s.setErrorStatus code).unscripted = s.unscripted := rfl

/-! ## `resetRegisters` -/

@[simp] theorem State.resetRegisters_cmdR : (s.resetRegisters).cmdR = 0#32 := rfl
@[simp] theorem State.resetRegisters_busy : (s.resetRegisters).busy = false := rfl
@[simp] theorem State.resetRegisters_pos : (s.resetRegisters).pos = 0#6 := rfl
@[simp] theorem State.resetRegisters_err : (s.resetRegisters).err = false := rfl
@[simp] theorem State.resetRegisters_errCode : (s.resetRegisters).errCode = codeNone := rfl
@[simp] theorem State.resetRegisters_done : (s.resetRegisters).done = false := rfl
@[simp] theorem State.resetRegisters_inputs : (s.resetRegisters).inputs = s.inputs := rfl
@[simp] theorem State.resetRegisters_unscripted : (s.resetRegisters).unscripted = s.unscripted := rfl

/-! ## `startCommand` -/

@[simp] theorem State.startCommand_cmdR (w : Word) : (s.startCommand w).cmdR = w := rfl
@[simp] theorem State.startCommand_busy (w : Word) : (s.startCommand w).busy = true := rfl
@[simp] theorem State.startCommand_pos (w : Word) : (s.startCommand w).pos = 0#6 := rfl
@[simp] theorem State.startCommand_err (w : Word) : (s.startCommand w).err = false := rfl
@[simp] theorem State.startCommand_errCode (w : Word) : (s.startCommand w).errCode = codeNone := rfl
@[simp] theorem State.startCommand_done (w : Word) : (s.startCommand w).done = false := rfl
@[simp] theorem State.startCommand_inputs (w : Word) : (s.startCommand w).inputs = s.inputs := rfl
@[simp] theorem State.startCommand_unscripted (w : Word) : (s.startCommand w).unscripted = s.unscripted := rfl

/-! ## `recordError` -/

@[simp] theorem State.recordError_cmdR (code : BitVec 2) : (s.recordError code).cmdR = s.cmdR := rfl
@[simp] theorem State.recordError_busy (code : BitVec 2) : (s.recordError code).busy = s.busy := rfl
@[simp] theorem State.recordError_pos (code : BitVec 2) : (s.recordError code).pos = s.pos := rfl
@[simp] theorem State.recordError_err (code : BitVec 2) : (s.recordError code).err = errOfCode code := rfl
@[simp] theorem State.recordError_errCode (code : BitVec 2) : (s.recordError code).errCode = code := rfl
@[simp] theorem State.recordError_done (code : BitVec 2) : (s.recordError code).done = false := rfl
@[simp] theorem State.recordError_inputs (code : BitVec 2) : (s.recordError code).inputs = s.inputs := rfl
@[simp] theorem State.recordError_unscripted (code : BitVec 2) : (s.recordError code).unscripted = s.unscripted := rfl

/-! ## `advance` -/

@[simp] theorem State.advance_cmdR : (s.advance).cmdR = s.cmdR := rfl
@[simp] theorem State.advance_busy : (s.advance).busy = s.busy := rfl
@[simp] theorem State.advance_pos : (s.advance).pos = s.pos + 1#6 := rfl
@[simp] theorem State.advance_err : (s.advance).err = s.err := rfl
@[simp] theorem State.advance_errCode : (s.advance).errCode = s.errCode := rfl
@[simp] theorem State.advance_done : (s.advance).done = false := rfl
@[simp] theorem State.advance_inputs : (s.advance).inputs = s.inputs := rfl
@[simp] theorem State.advance_unscripted : (s.advance).unscripted = s.unscripted := rfl

/-! ## `complete` -/

@[simp] theorem State.complete_cmdR : (s.complete).cmdR = s.cmdR := rfl
@[simp] theorem State.complete_busy : (s.complete).busy = false := rfl
@[simp] theorem State.complete_pos : (s.complete).pos = 0#6 := rfl
@[simp] theorem State.complete_err : (s.complete).err = s.err := rfl
@[simp] theorem State.complete_errCode : (s.complete).errCode = s.errCode := rfl
@[simp] theorem State.complete_done : (s.complete).done = true := rfl
@[simp] theorem State.complete_inputs : (s.complete).inputs = s.inputs := rfl
@[simp] theorem State.complete_unscripted : (s.complete).unscripted = s.unscripted := rfl

/-! ## `nextCycle` and `pins` -/

@[simp] theorem State.nextCycle_cmdR : s.nextCycle.cmdR = s.cmdR := by
  unfold State.nextCycle; split <;> rfl
@[simp] theorem State.nextCycle_busy : s.nextCycle.busy = s.busy := by
  unfold State.nextCycle; split <;> rfl
@[simp] theorem State.nextCycle_pos : s.nextCycle.pos = s.pos := by
  unfold State.nextCycle; split <;> rfl
@[simp] theorem State.nextCycle_err : s.nextCycle.err = s.err := by
  unfold State.nextCycle; split <;> rfl
@[simp] theorem State.nextCycle_errCode : s.nextCycle.errCode = s.errCode := by
  unfold State.nextCycle; split <;> rfl
@[simp] theorem State.nextCycle_done : s.nextCycle.done = s.done := by
  unfold State.nextCycle; split <;> rfl

@[simp] theorem State.nextCycle_inputs : s.nextCycle.inputs = s.inputs.tail := by
  unfold State.nextCycle; split <;> simp_all

@[simp] theorem State.pins_mk_cons (c : Word) (b : Bool) (p : BitVec 6) (e : Bool) (k : BitVec 2) (d : Bool)
    (x : Pins) (rest : List Pins) (u : Nat) : State.pins ⟨c, b, p, e, k, d, x :: rest, u⟩ = x := rfl

@[simp] theorem State.nextCycle_mk_cons (c : Word) (b : Bool) (p : BitVec 6) (e : Bool) (k : BitVec 2) (d : Bool)
    (x : Pins) (rest : List Pins) (u : Nat) :
    State.nextCycle ⟨c, b, p, e, k, d, x :: rest, u⟩ = ⟨c, b, p, e, k, d, rest, u⟩ := rfl

/-- The register check does not look at the inputs. -/
theorem State.unreachable_congr_inputs (c : Word) (b : Bool) (p : BitVec 6) (e : Bool) (k : BitVec 2) (d : Bool)
    (i i' : List Pins) (u u' : Nat) :
    State.unreachable ⟨c, b, p, e, k, d, i, u⟩ = State.unreachable ⟨c, b, p, e, k, d, i', u'⟩ := rfl

@[simp] theorem State.pinsAt_zero : s.pinsAt 0 = s.pins := rfl

theorem State.pinsAt_succ (k : Nat) : s.pinsAt (k + 1) = s.nextCycle.pinsAt k := rfl

end Sys2Proof.Machine
end

