-- ==== Sys2Proof/Laws/Ops.lean ====
section
/-! SUPPORT. What each shared operation of an edge can do, said once: the inversion lemmas that later proofs cite in place
of unfolding. -/

namespace Sys2Proof.Machine

open Host (Outcome)

variable {s t : State}

/-! ## `offerCommand` and the three meanings over it -/

theorem offerCommand_busy (p : Protocol) (l : BitVec 5) (d : BitVec 16) (h : s.busy = true) :
    offerCommand p l d s = .next s := by simp [offerCommand, h]

theorem offerCommand_empty (p : Protocol) (d : BitVec 16) (h : s.busy = false) :
    offerCommand p 0#5 d s = .next (s.recordError codeEmpty) := by simp [offerCommand, h]

theorem offerCommand_legal (p : Protocol) (l : BitVec 5) (d : BitVec 16) (h : s.busy = false) (hl : l ≠ 0#5) :
    offerCommand p l d s = .next (s.startCommand (commandWord p l d)) := by simp [offerCommand, h, hl]

/-- Everything an offered command can do. -/
theorem offerCommand_cases {p : Protocol} {l : BitVec 5} {d : BitVec 16}
    (h : offerCommand p l d s = .next t) :
    (s.busy = true ∧ t = s) ∨
    (s.busy = false ∧ l = 0#5 ∧ t = s.recordError codeEmpty) ∨
    (s.busy = false ∧ l ≠ 0#5 ∧ t = s.startCommand (commandWord p l d)) := by
  unfold offerCommand at h
  split at h
  · exact .inl ⟨‹_›, by simpa using h.symm⟩
  · split at h
    · exact .inr (.inl ⟨by simpa using ‹¬ s.busy = true›, ‹_›, by simpa using h.symm⟩)
    · exact .inr (.inr ⟨by simpa using ‹¬ s.busy = true›, ‹_›, by simpa using h.symm⟩)

/-- `exec` is one shared operation applied to the command's protocol and operands. -/
theorem exec_eq_offerCommand (i : Instr) (s : State) :
    exec i s = offerCommand i.protocol i.len i.payload s := by
  cases i <;> rfl

/-! ## `decode` and `classify` -/

/-- Everything `decode` can answer. -/
theorem decode_cases (w : Word) :
    (resHiField w ≠ 0#6 ∧ decode w = .error .reservedHi) ∨
    (resHiField w = 0#6 ∧ resLoField w ≠ 0#3 ∧ decode w = .error .reservedLo) ∨
    (resHiField w = 0#6 ∧ resLoField w = 0#3 ∧ proto w = none ∧ decode w = .error .reservedProto) ∨
    (∃ p, resHiField w = 0#6 ∧ resLoField w = 0#3 ∧ proto w = some p ∧
      decode w = .ok (Instr.ofProtocol p (lenField w) (payloadField w))) := by
  by_cases hh : resHiField w = 0#6
  · by_cases hl : resLoField w = 0#3
    · cases hp : proto w with
      | none => exact .inr (.inr (.inl ⟨hh, hl, rfl, by simp [decode, hh, hl, hp]⟩))
      | some p => exact .inr (.inr (.inr ⟨p, hh, hl, rfl, by simp [decode, hh, hl, hp]⟩))
    · exact .inr (.inl ⟨hh, hl, by simp [decode, hh, hl]⟩)
  · exact .inl ⟨hh, by simp [decode, hh]⟩

@[simp] theorem protocol_ofProtocol (p : Protocol) (l : BitVec 5) (d : BitVec 16) :
    (Instr.ofProtocol p l d).protocol = p := by cases p <;> rfl

@[simp] theorem len_ofProtocol (p : Protocol) (l : BitVec 5) (d : BitVec 16) :
    (Instr.ofProtocol p l d).len = l := by cases p <;> rfl

@[simp] theorem payload_ofProtocol (p : Protocol) (l : BitVec 5) (d : BitVec 16) :
    (Instr.ofProtocol p l d).payload = d := by cases p <;> rfl

@[simp] theorem ofProtocol_fields (i : Instr) : Instr.ofProtocol i.protocol i.len i.payload = i := by
  cases i <;> rfl

/-- A word whose reserved fields are 0 is put together again from its other fields. -/
theorem commandWord_fields {w : Word} {p : Protocol} (hh : resHiField w = 0#6) (hl : resLoField w = 0#3)
    (hp : proto w = some p) : commandWord p (lenField w) (payloadField w) = w := by
  have hc : protoField w = protoCode p := by
    unfold proto at hp
    split at hp
    · cases hp; assumption
    · split at hp
      · cases hp; assumption
      · split at hp
        · cases hp; assumption
        · cases hp
  have h1 := congrArg BitVec.toNat hh
  have h2 := congrArg BitVec.toNat hl
  have h3 := congrArg BitVec.toNat hc
  have hw := w.isLt
  apply BitVec.eq_of_toNat_eq
  rw [toNat_commandWord, ← h3]
  simp only [resHiField, resLoField, protoField, lenField, payloadField, BitVec.extractLsb'_toNat,
    Nat.shiftRight_eq_div_pow, BitVec.toNat_ofNat] at h1 h2 ⊢
  omega

/-! ## The edges -/

/-- Everything a tick while busy can do. -/
theorem tickEdge_cases (h : tickEdge s = .next t) :
    ∃ p, proto s.cmdR = some p ∧
      ((s.pos.toNat < traceLen p ∧ t = s.advance) ∨ (traceLen p ≤ s.pos.toNat ∧ t = s.complete)) := by
  unfold tickEdge at h
  split at h
  · next p hp =>
    refine ⟨p, hp, ?_⟩
    split at h
    · exact .inl ⟨‹_›, by simpa using h.symm⟩
    · exact .inr ⟨by omega, by simpa using h.symm⟩
  · cases h

/-- Everything the acceptance of a word can do. -/
theorem acceptEdge_cases {w : Word} (h : acceptEdge w s = .next t) (hb : s.busy = false) :
    (classify w = .illegal ∧ t = s.recordError codeIllegal) ∨
    (∃ p, classify w = .empty p ∧ t = s.recordError codeEmpty) ∨
    (∃ p, classify w = .enc p (bits w) ∧ t = s.startCommand w) := by
  obtain ⟨hh, hd⟩ | ⟨hh, hl, hd⟩ | ⟨hh, hl, hp, hd⟩ | ⟨p, hh, hl, hp, hd⟩ := decode_cases w
  · simp only [acceptEdge, hd, rejectWord, Outcome.next.injEq] at h
    exact .inl ⟨by simp [classify, hh], h.symm⟩
  · simp only [acceptEdge, hd, rejectWord, Outcome.next.injEq] at h
    exact .inl ⟨by simp [classify, hh, hl], h.symm⟩
  · simp only [acceptEdge, hd, rejectWord, Outcome.next.injEq] at h
    exact .inl ⟨by simp [classify, hh, hl, hp], h.symm⟩
  · simp only [acceptEdge, hd, exec_eq_offerCommand, protocol_ofProtocol, len_ofProtocol,
      payload_ofProtocol] at h
    obtain ⟨hb', -⟩ | ⟨-, h0, rfl⟩ | ⟨-, h0, rfl⟩ := offerCommand_cases h
    · simp [hb] at hb'
    · exact .inr (.inl ⟨p, by simp [classify, hh, hl, hp, h0], rfl⟩)
    · exact .inr (.inr ⟨p, by simp [classify, hh, hl, hp, h0], by rw [commandWord_fields hh hl hp]⟩)

/-- Everything one rising edge can do when it does not stop. -/
theorem step_cases (h : step s = .next t) :
    (s.pins.rst = true ∧ t = s.nextCycle.resetRegisters) ∨
    (s.pins.rst = false ∧ s.unreachable = none ∧
      ((s.busy = true ∧ s.pins.tick = true ∧ tickEdge s.nextCycle = .next t) ∨
       (s.busy = false ∧ s.pins.cmdValid = true ∧ acceptEdge s.pins.cmd s.nextCycle = .next t) ∨
       (s.busy = true ∧ s.pins.tick = false ∧ t = s.nextCycle.clearDone) ∨
       (s.busy = false ∧ s.pins.cmdValid = false ∧ t = s.nextCycle.clearDone))) := by
  unfold step clockEdge at h
  cases hr : s.pins.rst with
  | true => simp only [hr, if_true, Outcome.next.injEq] at h; exact .inl ⟨rfl, h.symm⟩
  | false =>
    simp only [hr, Bool.false_eq_true, if_false] at h
    cases hu : s.unreachable with
    | some r => simp [hu] at h
    | none =>
      simp only [hu] at h
      refine .inr ⟨rfl, rfl, ?_⟩
      cases hb : s.busy with
      | true =>
        simp only [hb, if_true] at h
        cases ht : s.pins.tick with
        | true => simp only [ht, if_true] at h; exact .inl ⟨rfl, rfl, h⟩
        | false =>
          simp only [ht, Bool.false_eq_true, if_false, holdEdge, Outcome.next.injEq] at h
          exact .inr (.inr (.inl ⟨rfl, rfl, h.symm⟩))
      | false =>
        simp only [hb, Bool.false_eq_true, if_false] at h
        cases hv : s.pins.cmdValid with
        | true => simp only [hv, if_true] at h; exact .inr (.inl ⟨rfl, rfl, h⟩)
        | false =>
          simp only [hv, Bool.false_eq_true, if_false, holdEdge, Outcome.next.injEq] at h
          exact .inr (.inr (.inr ⟨rfl, rfl, h.symm⟩))

end Sys2Proof.Machine
end

