-- ==== Sys2Proof/Laws/PerInstr.lean ====
section
/-! SUPPORT. Facts about every command as syntax, one lemma per constructor. -/

namespace Sys2Proof.Laws

/-- The mask of every row of the opcode table (rule R81). -/
def rowMask : Word := 0xFFE00000#32

/-- The match value of a command's row (rule R81). -/
def rowMatch : Instr → Word
  | .uart _ _ => 0x00000000#32
  | .spi _ _ => 0x01000000#32
  | .i2c _ _ => 0x02000000#32

/-- A command's source form is well-formed, and its word matches its own row of the opcode table. -/
def EncodesInItsRow.Statement (i : Instr) : Prop :=
  i.toSource.wellFormed = true ∧ encode i &&& rowMask = rowMatch i

theorem source_wellFormed (i : Instr) : i.toSource.wellFormed = true := by
  have hl : i.len.toNat ≤ 31 := Nat.le_of_lt_succ i.len.isLt
  have hd : i.payload.toNat ≤ 0xFFFF := Nat.le_of_lt_succ i.payload.isLt
  simp [SourceCommand.wellFormed, SourceCommand.lenInRange, SourceCommand.payloadInRange, Instr.toSource, hl, hd]

/-- The row mask keeps the eleven high bits of a word. -/
theorem toNat_and_rowMask (w : Word) : (w &&& rowMask).toNat = w.toNat / 2 ^ 21 * 2 ^ 21 := by
  have : w &&& rowMask = (w >>> 21) <<< 21 := by
    ext i hi
    interval_cases i <;> simp [rowMask]
  rw [this, BitVec.toNat_shiftLeft, BitVec.toNat_ushiftRight, Nat.shiftLeft_eq, Nat.shiftRight_eq_div_pow]
  have := w.isLt
  omega

theorem encode_and_rowMask (i : Instr) : (encode i &&& rowMask).toNat = (protoCode i.protocol).toNat * 2 ^ 24 := by
  have hl := i.len.isLt
  have hd := i.payload.isLt
  rw [toNat_and_rowMask, encode, Machine.toNat_commandWord]
  omega

theorem EncodesInItsRow.uart (l : BitVec 5) (d : BitVec 16) : EncodesInItsRow.Statement (.uart l d) :=
  ⟨source_wellFormed _, BitVec.eq_of_toNat_eq (by rw [encode_and_rowMask]; simp [Instr.protocol, protoCode, rowMatch])⟩

theorem EncodesInItsRow.spi (l : BitVec 5) (d : BitVec 16) : EncodesInItsRow.Statement (.spi l d) :=
  ⟨source_wellFormed _, BitVec.eq_of_toNat_eq (by rw [encode_and_rowMask]; simp [Instr.protocol, protoCode, rowMatch])⟩

theorem EncodesInItsRow.i2c (l : BitVec 5) (d : BitVec 16) : EncodesInItsRow.Statement (.i2c l d) :=
  ⟨source_wellFormed _, BitVec.eq_of_toNat_eq (by rw [encode_and_rowMask]; simp [Instr.protocol, protoCode, rowMatch])⟩

end Sys2Proof.Laws
end

