-- ==== Sys2Proof/Laws/Runs.lean ====
section
/-! SUPPORT. Facts about the invariant, about runs and about what a step leaves alone. -/

namespace Sys2Proof.Machine

open Host (Outcome)

variable {s t : State}

/-! ## The invariant -/

/-- The invariant as a computation, for concrete states. -/
def State.invCheck (s : State) : Bool :=
  s.unreachable.isNone && (!s.busy || (lenField s.cmdR != 0#5 && !s.err))

theorem codeNone_ne_codeReserved : codeNone ≠ codeReserved := by decide

/-- The states `step` does not refuse, clause by clause. -/
theorem unreachable_eq_none_iff (s : State) :
    s.unreachable = none ↔
      ((s.busy = true → holdsIllegalWord s.cmdR = false) ∧ (s.busy = true → s.posBeyondTrace = false) ∧
       (s.busy = false → s.pos = 0#6) ∧ s.errCode ≠ codeReserved ∧ (s.err = false → s.errCode = codeNone) ∧
       (s.err = true → s.errCode ≠ codeNone) ∧ (s.done = true → s.busy = false)) := by
  unfold State.unreachable
  cases hb : s.busy <;> cases he : s.err <;> cases hd : s.done <;>
    cases hi : holdsIllegalWord s.cmdR <;> cases hp : s.posBeyondTrace <;>
    by_cases h0 : s.pos = 0#6 <;> by_cases h3 : s.errCode = codeReserved <;> by_cases hc : s.errCode = codeNone <;>
    simp [h0, h3, hc, codeNone_ne_codeReserved]

theorem holdsIllegalWord_iff (w : Word) :
    holdsIllegalWord w = false ↔ ∃ i, decode w = .ok i := by
  obtain ⟨hh, hd⟩ | ⟨hh, hl, hd⟩ | ⟨hh, hl, hp, hd⟩ | ⟨p, hh, hl, hp, hd⟩ := decode_cases w <;>
    simp_all [holdsIllegalWord]

theorem posBeyondTrace_iff (s : State) :
    s.posBeyondTrace = false ↔ ∀ p, proto s.cmdR = some p → s.pos.toNat ≤ traceLen p := by
  unfold State.posBeyondTrace
  cases h : proto s.cmdR <;> simp

/-- A state meets the invariant exactly when the step would not refuse it and its held command is one that acceptance
can capture. -/
theorem inv_iff (s : State) :
    s.Inv ↔ s.unreachable = none ∧ (s.busy = true → lenField s.cmdR ≠ 0#5 ∧ s.err = false) := by
  rw [unreachable_eq_none_iff]
  constructor
  · intro h
    refine ⟨⟨fun hb => (holdsIllegalWord_iff _).2 (h.heldWordDecodes hb),
      fun hb => (posBeyondTrace_iff _).2 (h.posWithinTrace hb), h.posZeroWhenNotBusy, h.errCodeProduced, ?_,
      fun he => h.errIffCode.1 he, h.doneNotBusy⟩, fun hb => ⟨h.heldWordNonEmpty hb, h.noErrorWhilePlaying hb⟩⟩
    intro he
    by_contra hc
    simp [h.errIffCode.2 hc] at he
  · rintro ⟨⟨h1, h2, h3, h4, h5, h6, h7⟩, h8⟩
    exact ⟨fun hb => (holdsIllegalWord_iff _).1 (h1 hb), fun hb => (posBeyondTrace_iff _).1 (h2 hb), h3, h4,
      ⟨h6, fun hc => by by_contra he; exact hc (h5 (by simpa using he))⟩, h7, fun hb => (h8 hb).1, fun hb => (h8 hb).2⟩

theorem inv_of_check (h : s.invCheck = true) : s.Inv := by
  rw [inv_iff]
  simp only [State.invCheck, Bool.and_eq_true, Option.isNone_iff_eq_none] at h
  refine ⟨h.1, fun hb => ?_⟩
  simpa [hb] using h.2

theorem State.Inv.unreachable_eq_none (h : s.Inv) : s.unreachable = none := ((inv_iff s).1 h).1

/-- The protocol of a held command. -/
theorem State.Inv.proto_isSome (h : s.Inv) (hb : s.busy = true) : ∃ p, proto s.cmdR = some p := by
  obtain ⟨i, hi⟩ := h.heldWordDecodes hb
  obtain ⟨-, hd⟩ | ⟨-, -, hd⟩ | ⟨-, -, -, hd⟩ | ⟨p, -, -, hp, -⟩ := decode_cases s.cmdR
  · simp [hd] at hi
  · simp [hd] at hi
  · simp [hd] at hi
  · exact ⟨p, hp⟩

/-- A held command is one that `classify` calls an encode. -/
theorem State.Inv.classify_held (h : s.Inv) (hb : s.busy = true) {p : Protocol} (hp : proto s.cmdR = some p) :
    classify s.cmdR = .enc p (bits s.cmdR) := by
  obtain ⟨i, hi⟩ := h.heldWordDecodes hb
  have hl := h.heldWordNonEmpty hb
  obtain ⟨-, hd⟩ | ⟨-, -, hd⟩ | ⟨-, -, -, hd⟩ | ⟨q, hh, hl', hq, -⟩ := decode_cases s.cmdR
  · simp [hd] at hi
  · simp [hd] at hi
  · simp [hd] at hi
  · simp [classify, hh, hl', hp, hl]

/-! ## Runs -/

@[simp] theorem runSteps_zero (s : State) : runSteps 0 s = .next s := rfl

theorem runSteps_succ (k : Nat) (s : State) :
    runSteps (k + 1) s = match step s with
      | .next t => runSteps k t
      | .fault r => .fault r
      | .refused r => .refused r := by
  cases h : step s with
  | next t => have h' : Sys2Proof.core.step s = .next t := h; simp only [runSteps, Host.Core.run, h']; rfl
  | fault r => exact nomatch r
  | refused r => have h' : Sys2Proof.core.step s = .refused r := h; simp only [runSteps, Host.Core.run, h']; rfl

/-- One more step at the front of a run. -/
theorem runSteps_succ_of_step {k : Nat} (h : step s = .next t) : runSteps (k + 1) s = runSteps k t := by
  rw [runSteps_succ, h]

/-- One more step at the end of a run. -/
theorem runSteps_add_one {k : Nat} {u : State} (h : runSteps k s = .next t) (h' : step t = .next u) :
    runSteps (k + 1) s = .next u := by
  induction k generalizing s with
  | zero =>
    rw [runSteps_zero, Outcome.next.injEq] at h
    rw [h, runSteps_succ_of_step h', runSteps_zero]
  | succ k ih =>
    rw [runSteps_succ] at h
    cases hs : step s with
    | next s' =>
      rw [hs] at h
      rw [runSteps_succ_of_step hs]
      exact ih h
    | fault r => exact nomatch r
    | refused r => simp [hs] at h

/-- A step changes the model's own input fields only by using up the current cycle. -/
theorem step_inputs (h : step s = .next t) :
    t.inputs = s.nextCycle.inputs ∧ t.unscripted = s.nextCycle.unscripted := by
  obtain ⟨-, rfl⟩ | ⟨-, -, ⟨-, -, h⟩ | ⟨hb, -, h⟩ | ⟨-, -, rfl⟩ | ⟨-, -, rfl⟩⟩ := step_cases h
  · simp
  · obtain ⟨p, -, ⟨-, rfl⟩ | ⟨-, rfl⟩⟩ := tickEdge_cases h <;> simp
  · obtain ⟨-, rfl⟩ | ⟨p, -, rfl⟩ | ⟨p, -, rfl⟩ := acceptEdge_cases h (by simpa using hb) <;> simp
  · simp
  · simp

/-- The inputs of later cycles depend on a state's input fields alone. -/
theorem pinsAt_congr {u : State} (hi : t.inputs = u.inputs) (hu : t.unscripted = u.unscripted) (k : Nat) :
    t.pinsAt k = u.pinsAt k := by
  induction k generalizing t u with
  | zero => simp [State.pins, hi, hu]
  | succ k ih =>
    rw [State.pinsAt_succ, State.pinsAt_succ]
    apply ih
    · simp [hi]
    · unfold State.nextCycle; rw [hi]; split <;> simp [hu]

/-- After a step the `k`-th cycle is what the `k + 1`-th was before it. -/
theorem pinsAt_step (h : step s = .next t) (k : Nat) : t.pinsAt k = s.pinsAt (k + 1) := by
  obtain ⟨hi, hu⟩ := step_inputs h
  exact pinsAt_congr hi hu k

end Sys2Proof.Machine
end

