-- ==== Sys2Proof/Tests/Slice0.lean ====
section
/-! SUPPORT. The model's own tests: expected values come from 95_test_vectors.md and from the rules named. The second
half shows, for every statement of Obligations.lean that has hypotheses, concrete data that meets them all. -/

namespace Sys2Proof.Tests

open Sys2Proof Sys2Proof.Machine

/-! ## Helpers -/

/-- Inputs of a cycle with nothing on them. -/
def quiet : Pins := ⟨false, false, false, 0#32⟩
/-- A tick. -/
def tickPin : Pins := ⟨false, true, false, 0#32⟩
/-- A reset edge, with everything else offered too. -/
def rstPin : Pins := ⟨true, true, true, 0x0008B500#32⟩
/-- A word offered. -/
def offerPin (w : Word) : Pins := ⟨false, false, true, w⟩

/-- After reset, with the given inputs. -/
def idleWith (ins : List Pins) : State := { State.reset with inputs := ins }
/-- Playing a word, `pos` ticks after acceptance, with the given inputs. -/
def playing (w : Word) (pos : BitVec 6) (ins : List Pins) : State :=
  { State.reset with cmdR := w, busy := true, pos := pos, inputs := ins }

/-! ## Well-formedness: an ill-formed term for each check -/

/-- Vector A14. -/
theorem test_wf_len_out_of_range :
    (SourceCommand.mk .uart 32 0).lenInRange = false ∧ (SourceCommand.mk .uart 32 0).toInstr? = none := by decide
/-- Vector A15. -/
theorem test_wf_payload_out_of_range :
    (SourceCommand.mk .uart 1 0x10000).payloadInRange = false ∧
      (SourceCommand.mk .uart 1 0x10000).toInstr? = none := by decide
theorem test_wf_limits_accepted :
    (SourceCommand.mk .i2c 31 0xFFFF).toInstr? = some (.i2c 31#5 0xFFFF#16) := by decide

/-! ## Decoding: words written out from the layout of rule R70 -/

/-- Vector A1, bit by bit: RES_HI, PROTO, RES_LO, LEN, PAYLOAD. -/
theorem test_decode_uart : decode 0b000000_00_000_01000_1011010100000000#32 = .ok (.uart 8#5 0xB500#16) := by decide
/-- Vector A2. -/
theorem test_decode_spi : decode 0b000000_01_000_01000_1011010100000000#32 = .ok (.spi 8#5 0xB500#16) := by decide
/-- Vector A3. -/
theorem test_decode_i2c : decode 0b000000_10_000_01111_1010000101001010#32 = .ok (.i2c 15#5 0xA14A#16) := by decide
/-- Rules R72 and R76: PROTO = 11, and each reserved bit alone. -/
theorem test_decode_rejects :
    decode 0b000000_11_000_01000_0000000000000000#32 = .error .reservedProto ∧
    (∀ i ∈ [26, 27, 28, 29, 30, 31], decode (BitVec.twoPow 32 i) = .error .reservedHi) ∧
    (∀ i ∈ [21, 22, 23], decode (BitVec.twoPow 32 i) = .error .reservedLo) := by decide
/-- The examples of rule R86. -/
theorem test_encode :
    encode (.uart 8#5 0xB500#16) = 0x0008B500#32 ∧ encode (.spi 8#5 0xB500#16) = 0x0108B500#32 ∧
    encode (.i2c 15#5 0xA14A#16) = 0x020FA14A#32 := by decide
/-- Vectors A5 to A10 and A13: the spec's own decode. -/
theorem test_classify :
    classify 0x001FB500#32 = .enc .uart
      [true, false, true, true, false, true, false, true, false, false, false, false, false, false, false, false] ∧
    classify 0x00000000#32 = .empty .uart ∧ classify 0x0100FFFF#32 = .empty .spi ∧
    classify 0x02000000#32 = .empty .i2c ∧ classify 0x03080000#32 = .illegal ∧
    classify 0x03000000#32 = .illegal ∧ classify 0x80000000#32 = .illegal := by decide

/-! ## Traces: vectors U9, S1 and I5 -/

theorem test_trace_uart : trace 0x0001FFFF#32 = some ⟨.uart, [⟨.tx,
    [true, false, false, false, false, false, false, false, false, true, true, true]⟩]⟩ := by decide
theorem test_trace_spi : (trace 0x0108B500#32).bind (fun t => t.levelsOf .mosi) = some
    [true, true, true, true, false, false, true, true, true, true, false, false, true, true, false, false, true, true,
     true, true] := by decide
theorem test_trace_i2c : (trace 0x0208FF00#32).bind (fun t => t.levelsOf .sda) = some
    [true, true, true, false, true, true, true, true, true, true, true, true, true, true, true, true, true, true,
     false, false, false, false, true, true, false, false, false, false, false, false, false, false, false, false,
     false, false, false, false, false, false, false, true, true, true] := by decide

/-! ## One step: each command starts, and raises EMPTY -/

theorem test_step_uart :
    step (State.reset.withFetchWord 32 0x0008B500) = .next { State.reset with cmdR := 0x0008B500#32, busy := true } := rfl
theorem test_step_spi :
    step (State.reset.withFetchWord 32 0x0108B500) = .next { State.reset with cmdR := 0x0108B500#32, busy := true } := rfl
theorem test_step_i2c :
    step (State.reset.withFetchWord 32 0x020FA14A) = .next { State.reset with cmdR := 0x020FA14A#32, busy := true } := rfl
/-- Vectors X2, X6 and the I²C word of W6. -/
theorem test_step_empty : ∀ w ∈ [0x00000000, 0x0100FFFF, 0x02000000],
    step (State.reset.withFetchWord 32 w) = .next { State.reset with err := true, errCode := 0b01#2 } := by
  intro w hw
  simp only [List.mem_cons, List.not_mem_nil, or_false] at hw
  rcases hw with rfl | rfl | rfl <;> rfl
/-- Vectors X1, X3 to X5. -/
theorem test_step_illegal : ∀ w ∈ [0x03080000, 0x40080000, 0x03000000, 0x00280000],
    step (State.reset.withFetchWord 32 w) = .next { State.reset with err := true, errCode := 0b10#2 } := by
  intro w hw
  simp only [List.mem_cons, List.not_mem_nil, or_false] at hw
  rcases hw with rfl | rfl | rfl | rfl <;> rfl
/-- Vector X8: a legal command clears the status an error left, and a reset edge clears everything. -/
theorem test_step_clears_error :
    step { idleWith [offerPin 0x0008B500#32] with err := true, errCode := 0b10#2 }
      = .next (playing 0x0008B500#32 0#6 []) ∧
    step (playing 0x0008B500#32 7#6 [rstPin]) = .next State.reset := ⟨rfl, rfl⟩
/-- Rule R117 at the last sample of each trace. -/
theorem test_step_completes :
    step (playing 0x0008B500#32 12#6 [tickPin]) = .next { State.reset with cmdR := 0x0008B500#32, done := true } ∧
    step (playing 0x0108B500#32 20#6 [tickPin]) = .next { State.reset with cmdR := 0x0108B500#32, done := true } ∧
    step (playing 0x020FA14A#32 44#6 [tickPin]) = .next { State.reset with cmdR := 0x020FA14A#32, done := true } :=
  ⟨rfl, rfl, rfl⟩
/-- Rule R128: each clause of its list, refused by name. -/
theorem test_step_refusals :
    step (playing 0x03080000#32 1#6 [tickPin]) = .refused .illegalCommandHeld ∧
    step (playing 0x0008B500#32 13#6 [quiet]) = .refused .posBeyondTrace ∧
    step { idleWith [quiet] with pos := 1#6 } = .refused .posWhileNotBusy ∧
    step { idleWith [quiet] with err := true, errCode := 0b11#2 } = .refused .errCodeReserved ∧
    step { idleWith [quiet] with errCode := 0b01#2 } = .refused .errCodeWithoutErr ∧
    step { idleWith [quiet] with err := true } = .refused .errWithoutErrCode ∧
    step { playing 0x0008B500#32 1#6 [quiet] with done := true } = .refused .doneWhileBusy :=
  ⟨rfl, rfl, rfl, rfl, rfl, rfl, rfl⟩
/-- Lines in the middle of a trace: I1's sample 3, the Start's fall. -/
theorem test_lines_i2c_start :
    (playing 0x020FA14A#32 4#6 []).lines = some ⟨true, true, false, false, true, false⟩ := by decide

/-! ## The host's side -/

/-- Vectors H1, H3 and H4. -/
theorem test_normalize :
    normalize Config.defaultTrimSet ['B', '5'] = .ok [true, false, true, true, false, true, false, true] ∧
    normalize Config.defaultTrimSet ['1', '0'] = .ok [true, false] ∧
    normalize Config.defaultTrimSet [' ', ' ', '1', ' '] = .ok [true] := ⟨rfl, rfl, rfl⟩
/-- Vector A17 and W6. -/
theorem test_normalize_fails :
    normalize Config.defaultTrimSet ['0', 'x', '1', '0'] = .error .neitherFormat ∧
    normalize Config.defaultTrimSet [' ', ' ', ' '] = .error .emptyInput := ⟨rfl, rfl⟩
/-- Vector A16: `uart "10" ; x`, mnemonics in any case. -/
theorem test_read_text :
    readLine ['u', 'a', 'r', 't', ' ', quoteMark, '1', '0', quoteMark, ' ', ';', 'x'] = .ok (.text .uart ['1', '0']) ∧
    assembleLine Config.defaultTrimSet (.text .uart ['1', '0']) = .ok [.offer 0x00028000#32] := ⟨rfl, rfl⟩
/-- Vector A1's line. -/
theorem test_read_command :
    readLine ['U', 'A', 'R', 'T', ' ', '8', ',', ' ', '0', 'x', 'B', '5', '0', '0'] = .ok (.command ⟨.uart, 8, 0xB500⟩) := rfl

/-! ## Witnesses: data that meet a statement's hypotheses together, at the ends of a range where there is one -/

/-- A run of `k` edges without a reset, checked. -/
theorem noResetFor_of_all {s : State} {k : Nat} (h : (List.range k).all (fun j => !(s.pinsAt j).rst) = true) :
    s.noResetFor k := by
  intro j hj
  have := List.all_eq_true.1 h j (List.mem_range.2 hj)
  simpa using this

theorem test_witness_DecodeInvertsEncode :
    decode 0x001FFFFF#32 = .ok (.uart 31#5 0xFFFF#16) ∧ decode 0x02000000#32 = .ok (.i2c 0#5 0#16) := by decide
theorem test_witness_DecodeFollowsOpcodeTable :
    decode 0x021FFFFF#32 = .ok (.i2c 31#5 0xFFFF#16) ∧ classify 0x02200000#32 = .illegal ∧
    classify 0x03FFFFFF#32 = .illegal ∧ classify 0x0200FFFF#32 = .empty .i2c ∧
    (Protocol.i2c, 0x02000000#32) ∈ [(Protocol.uart, 0x00000000#32), (.spi, 0x01000000#32), (.i2c, 0x02000000#32)] := by
  decide
theorem test_witness_AssemblerEncodesOrRefuses :
    (Protocol.i2c, 2) ∈ [(Protocol.uart, 0), (.spi, 1), (.i2c, 2)] ∧
    assembleLine [] (.command ⟨.i2c, 31, 0xFFFF⟩) = .ok [.offer 0x021FFFFF#32] ∧
    assembleLine [] (.command ⟨.i2c, 32, 0xFFFF⟩) = .error .operandRange ∧
    assembleLine [] (.command ⟨.i2c, 31, 0x10000⟩) = .error .operandRange := by decide
theorem test_witness_PaddedElementsInClosedForm :
    16 ≤ 16 ∧ 15 < 16 ∧ (fit 16 (bits 0x0010B5A1#32))[15]? = some true ∧ (fit 16 (bits 0x000FB5A1#32))[15]? = some false := by
  decide
/-- LEN = 1 with every payload bit set and with element 0 alone; LEN = 15 against LEN = 31. -/
theorem test_witness_IgnoredBitsChangeNoTrace :
    ∀ v ∈ [(0x0001FFFF#32, 0x00018000#32, 1), (0x000FFFFE#32, 0x001FFFFF#32, 15)],
      classify v.1 = .enc .uart (bits v.1) ∧ classify v.2.1 = .enc .uart (bits v.2.1) ∧
      min (lenField v.1).toNat 15 = v.2.2 ∧ min (lenField v.2.1).toNat 15 = v.2.2 ∧
      ∀ i < v.2.2, v.1.getLsbD (15 - i) = v.2.1.getLsbD (15 - i) := by decide
theorem test_witness_EmptyPayloadHasNoTrace :
    bits 0x0100FFFF#32 = [] ∧ State.reset.busy = false ∧ bits (encode (.spi 0#5 0xFFFF#16)) = [] ∧ bits 0x00010000#32 ≠ [] := by
  decide
/-- One element, and more than any encoder reads. -/
theorem test_witness_TruncationChangesNoTrace :
    [true] ≠ [] ∧ List.replicate 17 true ≠ [] ∧ (List.replicate 17 true).take 15 ≠ List.replicate 17 true := by decide
theorem test_witness_TraceSetsHaveTheirShape :
    [true] ≠ [] ∧ (Protocol.spi, ["SS", "SCLK", "MOSI"], 20) ∈
      [(Protocol.uart, ["TX"], 12), (.spi, ["SS", "SCLK", "MOSI"], 20), (.i2c, ["SCL", "SDA"], 44)] := by decide
theorem test_witness_UartFramingAndDataOrder : [true] ≠ [] := by decide
theorem test_witness_SpiSelectAndClock : [true] ≠ [] := by decide
/-- A payload on which MOSI changes at both ends of its range. -/
theorem test_witness_SpiModeZeroContract :
    [true, false, false, false, false, false, false, true] ≠ [] ∧
    [4, 16].all (fun n => (spiMosi [true, false, false, false, false, false, false, true])[n]? !=
      (spiMosi [true, false, false, false, false, false, false, true])[n - 1]?) := by decide
theorem test_witness_I2cClockAndDataLevels : [true] ≠ [] := by decide
/-- The Start, the Stop, and the first and last other change (vectors I3 and I6). -/
theorem test_witness_I2cStartStopAndStability :
    bits 0x020FFFFE#32 ≠ [] ∧
    [3, 4, 38, 41].all (fun n => (i2cSda (i2cSequence (bits 0x020FFFFE#32)))[n]? !=
      (i2cSda (i2cSequence (bits 0x020FFFFE#32)))[n - 1]?) := by decide
theorem test_witness_I2cCarriesAddressAndData : [true] ≠ [] := by decide
theorem test_witness_SlotRolesNameTheBits :
    [true] ≠ [] ∧ uartRole 9 = some (.data 7) ∧ spiRole 1 = some (.data 7) ∧ i2cRole 2 = some (.addr 6) ∧
    i2cRole 18 = some (.data 0) ∧ i2cRole 9 = some .rw ∧ i2cRole 19 = some .ack ∧ i2cRole 20 = some .stop ∧
    i2cRole 1 = some .start ∧ i2cRole 21 = some .idle ∧ spiRole 9 = some .idle ∧ uartRole 1 = some .start ∧
    uartRole 10 = some .stop ∧ uartRole 11 = some .idle := by decide
theorem test_witness_LegalCommandStarts : State.reset.busy = false ∧ 1#5 ≠ 0#5 ∧ 31#5 ≠ 0#5 := by decide
theorem test_witness_EmptyCommandRecordsEmpty : State.reset.busy = false := by decide
theorem test_witness_CommandWaitsWhileBusy : (playing 0x0008B500#32 1#6 []).busy = true := by decide
theorem test_witness_StepRunsTheDecodedCommand :
    let s := idleWith [offerPin 0x0008B500#32]
    s.Inv ∧ s.pins.rst = false ∧ s.busy = false ∧ s.pins.cmdValid = true ∧ decode s.pins.cmd = .ok (.uart 8#5 0xB500#16) :=
  ⟨inv_of_check (by decide), by decide⟩
theorem test_witness_FetchedWordRunsNext :
    State.reset.Inv ∧ decodeTableWord 32 0x0008B500 = some (.uart 8#5 0xB500#16) := ⟨inv_of_check (by decide), by decide⟩
/-- With a cycle listed, and with none listed, whatever the environment drives. -/
theorem test_witness_StepUsesOneCycleOfInputs :
    step (idleWith [quiet, tickPin]) = .next (idleWith [tickPin]) ∧ ∃ t, step State.reset = .next t := by
  refine ⟨rfl, ?_⟩
  have hu : State.reset.unreachable = none := by decide
  have hb : State.reset.busy = false := rfl
  cases hr : State.reset.pins.rst with
  | true => exact ⟨_, by simp only [step, clockEdge, hr, if_true]; rfl⟩
  | false =>
    cases hv : State.reset.pins.cmdValid with
    | false => exact ⟨_, by simp only [step, clockEdge, hr, hu, hb, hv, holdEdge]; rfl⟩
    | true =>
      simp only [step, clockEdge, hr, hu, hb, hv, acceptEdge]
      cases decode State.reset.pins.cmd with
      | error why => exact ⟨_, rfl⟩
      | ok i =>
        simp only [Bool.false_eq_true, if_false, if_true, exec_eq_offerCommand, offerCommand]
        split
        · exact ⟨_, rfl⟩
        · split <;> exact ⟨_, rfl⟩
/-- One state for each branch of rule R114: reset, ILLEGAL, EMPTY, a legal word, hold, advance, completion, hold. -/
def branchStates : List State :=
  [playing 0x0008B500#32 3#6 [rstPin], idleWith [offerPin 0x03080000#32], idleWith [offerPin 0#32],
   idleWith [offerPin 0x021FFFFF#32], idleWith [tickPin], playing 0x020FA14A#32 43#6 [tickPin],
   playing 0x020FA14A#32 44#6 [tickPin], playing 0x020FA14A#32 44#6 [offerPin 0#32]]
theorem test_witness_StepIsTheNextStateFunction : ∀ s ∈ branchStates, s.Inv :=
  fun s hs => inv_of_check (by revert s; decide)
theorem test_witness_ResetEdgeClearsEverything :
    (playing 0x0008B500#32 3#6 [rstPin]).pins.rst = true ∧
    ({ playing 0x03000000#32 63#6 [rstPin] with errCode := 0b11#2 } : State).pins.rst = true := by decide
theorem test_witness_AcceptanceCapturesTheWord :
    (∀ w ∈ [0x0008B500#32, 0x03080000#32, 0x0100FFFF#32], (idleWith [offerPin w]).Inv ∧
      (idleWith [offerPin w]).pins.rst = false ∧ (idleWith [offerPin w]).busy = false ∧
      (idleWith [offerPin w]).pins.cmdValid = true) ∧
    classify 0x0008B500#32 = .enc .uart (bits 0x0008B500#32) ∧ classify 0x03080000#32 = .illegal ∧
    classify 0x0100FFFF#32 = .empty .spi ∧
    (playing 0x0008B500#32 0#6 [quiet, offerPin 0#32]).noResetFor 2 ∧
    (playing 0x0008B500#32 0#6 [quiet, offerPin 0#32]).ticksIn 2 = 0 := by
  refine ⟨fun w hw => ⟨inv_of_check ?_, rfl, rfl, rfl⟩, by decide, by decide, by decide, noResetFor_of_all (by decide),
    by decide⟩
  rfl
/-- The lowest and highest reserved bits, PROTO = 11, and LEN = 0 with the highest legal PROTO. -/
theorem test_witness_ErrorIsRecordedAndPlaysNothing :
    ∀ w ∈ [0x80000000#32, 0x04000000#32, 0x00200000#32, 0x00810000#32, 0x03010000#32, 0x0200FFFF#32],
      (idleWith [offerPin w]).Inv ∧ (idleWith [offerPin w]).pins.rst = false ∧ (idleWith [offerPin w]).busy = false ∧
      (idleWith [offerPin w]).pins.cmdValid = true ∧
      (w.toNat / 2 ^ 26 ≠ 0 ∨ w.toNat / 2 ^ 21 % 2 ^ 3 ≠ 0 ∨ w.toNat / 2 ^ 24 % 2 ^ 2 = 3 ∨ w.toNat / 2 ^ 16 % 2 ^ 5 = 0) := by
  intro w hw
  refine ⟨inv_of_check rfl, rfl, rfl, rfl, ?_⟩
  simp only [List.mem_cons, List.not_mem_nil, or_false] at hw
  rcases hw with rfl | rfl | rfl | rfl | rfl | rfl <;> decide
/-- The first and the last advance of each protocol. -/
theorem test_witness_AdvanceShowsTheNextSample :
    ∀ v ∈ [(Protocol.uart, 0x0008B500#32, 0#6), (.uart, 0x0008B500#32, 11#6), (.spi, 0x0108B500#32, 0#6),
      (.spi, 0x0108B500#32, 19#6), (.i2c, 0x020FA14A#32, 0#6), (.i2c, 0x020FA14A#32, 43#6)],
      let s := playing v.2.1 v.2.2 [tickPin]
      s.Inv ∧ s.pins.rst = false ∧ s.busy = true ∧ s.pins.tick = true ∧ proto s.cmdR = some v.1 ∧
        s.pos.toNat < traceLen v.1 := by
  intro v hv
  refine ⟨inv_of_check ?_, rfl, rfl, rfl, ?_, ?_⟩ <;> (revert v; decide)
theorem test_witness_CompletionPulsesDone :
    ∀ v ∈ [(Protocol.uart, 0x0008B500#32, 12#6), (.spi, 0x0108B500#32, 20#6), (.i2c, 0x020FA14A#32, 44#6)],
      let s := playing v.2.1 v.2.2 [tickPin]
      s.Inv ∧ s.pins.rst = false ∧ s.busy = true ∧ s.pins.tick = true ∧ proto s.cmdR = some v.1 ∧
        s.pos.toNat = traceLen v.1 := by
  intro v hv
  refine ⟨inv_of_check ?_, rfl, rfl, rfl, ?_, ?_⟩ <;> (revert v; decide)
theorem test_witness_HoldKeepsRegistersAndLines :
    let s := playing 0x020FA14A#32 44#6 [quiet, offerPin 0#32]
    let s' := idleWith [tickPin]
    s.Inv ∧ s.pins.rst = false ∧ (s.busy = true ∧ s.pins.tick = false) ∧ s.noResetFor 2 ∧ s.ticksIn 2 = 0 ∧
    s'.Inv ∧ s'.pins.rst = false ∧ (s'.busy = false ∧ s'.pins.cmdValid = false) :=
  ⟨inv_of_check (by decide), by decide, by decide, noResetFor_of_all (by decide), by decide, inv_of_check (by decide),
   by decide⟩
/-- A completion, and the edge after it. -/
theorem test_witness_DoneIsAOneCyclePulse :
    let s := playing 0x020FA14A#32 44#6 [tickPin, quiet]
    let t : State := { idleWith [quiet] with cmdR := 0x020FA14A#32, done := true }
    s.Inv ∧ step s = .next t ∧ t.done = true ∧ step t = .next { idleWith [] with cmdR := 0x020FA14A#32 } :=
  ⟨inv_of_check (by decide), rfl, rfl, rfl⟩
/-- An acceptance, a busy edge that is no completion, and a completion. -/
theorem test_witness_BusyFromAcceptanceToCompletion :
    (idleWith [offerPin 0x020FA14A#32]).Inv ∧
    step (idleWith [offerPin 0x020FA14A#32]) = .next (playing 0x020FA14A#32 0#6 []) ∧
    (playing 0x020FA14A#32 43#6 [tickPin]).Inv ∧
    step (playing 0x020FA14A#32 43#6 [tickPin]) = .next (playing 0x020FA14A#32 44#6 []) ∧
    (playing 0x020FA14A#32 44#6 [tickPin]).Inv ∧
    step (playing 0x020FA14A#32 44#6 [tickPin]) = .next { State.reset with cmdR := 0x020FA14A#32, done := true } :=
  ⟨inv_of_check (by decide), rfl, inv_of_check (by decide), rfl, inv_of_check (by decide), rfl⟩
/-- A reset edge, an acceptance, an EMPTY word, and a busy edge that ignores an offer. -/
theorem test_witness_CmdRIsWrittenOnlyByAcceptance :
    (playing 0x020FA14A#32 43#6 [rstPin]).Inv ∧ step (playing 0x020FA14A#32 43#6 [rstPin]) = .next State.reset ∧
    (idleWith [offerPin 0x021FFFFF#32]).Inv ∧
    step (idleWith [offerPin 0x021FFFFF#32]) = .next (playing 0x021FFFFF#32 0#6 []) ∧
    (idleWith [offerPin 0x0200FFFF#32]).Inv ∧
    step (idleWith [offerPin 0x0200FFFF#32]) = .next { State.reset with err := true, errCode := 0b01#2 } ∧
    (playing 0x020FA14A#32 0#6 [offerPin 0x0008B500#32]).Inv ∧
    step (playing 0x020FA14A#32 0#6 [offerPin 0x0008B500#32]) = .next (playing 0x020FA14A#32 0#6 []) :=
  ⟨inv_of_check (by decide), rfl, inv_of_check (by decide), rfl, inv_of_check (by decide), rfl,
   inv_of_check (by decide), rfl⟩
/-- A reset edge, ILLEGAL, EMPTY and legal words, and an edge with no acceptance, each after an error. -/
theorem test_witness_ErrorStatusIsWrittenOnlyByAcceptance :
    let bad : List Pins → State := fun ins => { idleWith ins with err := true, errCode := 0b10#2 }
    (∀ p ∈ [rstPin, offerPin 0x03000000#32, offerPin 0#32, offerPin 0x0008B500#32, tickPin], (bad [p]).Inv) ∧
    step (bad [rstPin]) = .next State.reset ∧ step (bad [offerPin 0x03000000#32]) = .next (bad []) ∧
    step (bad [offerPin 0#32]) = .next { State.reset with err := true, errCode := 0b01#2 } ∧
    step (bad [offerPin 0x0008B500#32]) = .next (playing 0x0008B500#32 0#6 []) ∧ step (bad [tickPin]) = .next (bad []) := by
  refine ⟨fun p hp => inv_of_check ?_, rfl, rfl, rfl, rfl, rfl⟩
  revert p; decide
/-- Ready with an offer, ready without one, busy, and in reset. -/
theorem test_witness_OfferIsTakenExactlyWhenReady :
    (idleWith [offerPin 0x0008B500#32]).Inv ∧ (idleWith [offerPin 0x0008B500#32]).cmdReadyOut = true ∧
    (offerPin 0x0008B500#32).cmdValid = true ∧ (idleWith [quiet]).Inv ∧ quiet.cmdValid = false ∧
    (playing 0x020FA14A#32 0#6 [offerPin 0x0008B500#32]).Inv ∧
    (playing 0x020FA14A#32 0#6 [offerPin 0x0008B500#32]).cmdReadyOut = false ∧
    (idleWith [rstPin]).Inv ∧ (idleWith [rstPin]).cmdReadyOut = false :=
  ⟨inv_of_check (by decide), by decide, by decide, inv_of_check (by decide), by decide, inv_of_check (by decide),
   by decide, inv_of_check (by decide), by decide⟩
theorem test_witness_TickIsIgnoredWhenNotBusy :
    (idleWith [offerPin 0x0008B500#32]).inputs = offerPin 0x0008B500#32 :: [] ∧
    (idleWith [offerPin 0x0008B500#32]).busy = false := by decide
theorem test_witness_LinesIdleUnlessPlaying :
    (idleWith []).Inv ∧ (idleWith []).busy = false ∧ (playing 0x0108B500#32 0#6 []).Inv ∧
    (playing 0x0108B500#32 0#6 []).pos = 0#6 ∧ (playing 0x0108B500#32 1#6 []).Inv ∧
    proto (playing 0x0108B500#32 1#6 []).cmdR ≠ some .uart ∧ proto (playing 0x0108B500#32 1#6 []).cmdR ≠ some .i2c ∧
    (playing 0x0008B500#32 1#6 []).Inv ∧ proto (playing 0x0008B500#32 1#6 []).cmdR ≠ some .spi :=
  ⟨inv_of_check (by decide), by decide, inv_of_check (by decide), by decide, inv_of_check (by decide), by decide,
   by decide, inv_of_check (by decide), by decide⟩
/-- The samples where the clauses of rule R143 meet. -/
theorem test_witness_UartLinesShowTheFrame :
    ∀ k ∈ [0, 1, 2, 9, 10, 11], let s := playing 0x0008B500#32 (BitVec.ofNat 6 (k + 1)) []
      s.Inv ∧ s.busy = true ∧ proto s.cmdR = some .uart ∧ s.pos.toNat = k + 1 := by
  intro k hk
  refine ⟨inv_of_check ?_, rfl, (by decide : proto 0x0008B500#32 = some .uart), ?_⟩ <;> (revert k; decide)
/-- The samples where the clauses of rule R166 meet. -/
theorem test_witness_SpiLinesShowTheTransfer :
    ∀ k ∈ [0, 1, 2, 3, 16, 17, 18, 19], let s := playing 0x0108B500#32 (BitVec.ofNat 6 (k + 1)) []
      s.Inv ∧ s.busy = true ∧ proto s.cmdR = some .spi ∧ s.pos.toNat = k + 1 := by
  intro k hk
  refine ⟨inv_of_check ?_, rfl, (by decide : proto 0x0108B500#32 = some .spi), ?_⟩ <;> (revert k; decide)
/-- The samples where the clauses of rules R183 and R187 meet. -/
theorem test_witness_I2cLinesShowTheWrite :
    ∀ k ∈ [0, 1, 2, 3, 4, 17, 18, 19, 20, 21, 22, 37, 38, 39, 40, 41, 42, 43],
      let s := playing 0x020FA14A#32 (BitVec.ofNat 6 (k + 1)) []
      s.Inv ∧ s.busy = true ∧ proto s.cmdR = some .i2c ∧ s.pos.toNat = k + 1 := by
  intro k hk
  refine ⟨inv_of_check ?_, rfl, (by decide : proto 0x020FA14A#32 = some .i2c), ?_⟩ <;> (revert k; decide)
theorem test_witness_ResetRegisterValues : (idleWith [quiet]).pins.rst = false := by decide
theorem test_witness_StepKeepsTheInvariant :
    (playing 0x020FA14A#32 43#6 [tickPin]).Inv ∧
    step (playing 0x020FA14A#32 43#6 [tickPin]) = .next (playing 0x020FA14A#32 44#6 []) := ⟨inv_of_check (by decide), rfl⟩
theorem test_witness_InvariantStatesAlwaysGoOn : (playing 0x020FA14A#32 44#6 [offerPin 0#32]).Inv :=
  inv_of_check (by decide)
/-- Both clauses: one tick taken of a trace, all of them, and the completing tick. -/
theorem test_witness_PlayedTraceIsTheEncodedTrace :
    let s := playing 0x0008B500#32 0#6 (List.replicate 13 tickPin)
    s.Inv ∧ s.busy = true ∧ s.pos = 0#6 ∧ proto s.cmdR = some .uart ∧
    (∃ tr, encodeTrace .uart (bits s.cmdR) = .ok tr) ∧ s.noResetFor 1 ∧ s.ticksIn 1 ≤ traceLen .uart ∧
    s.noResetFor 12 ∧ s.ticksIn 12 = traceLen .uart ∧ (s.pinsAt 12).rst = false ∧ (s.pinsAt 12).tick = true :=
  ⟨inv_of_check (by decide), rfl, rfl, by decide, ⟨_, rfl⟩, noResetFor_of_all (by decide), by decide,
   noResetFor_of_all (by decide), by decide, by decide, by decide⟩
theorem test_witness_CommandCompletesInItsTickCount :
    let s := idleWith (offerPin 0x020FA14A#32 :: List.replicate 45 tickPin)
    (Protocol.i2c, 45) ∈ [(Protocol.uart, 13), (.spi, 21), (.i2c, 45)] ∧ s.Inv ∧ s.busy = false ∧ s.pins.rst = false ∧
    s.pins.cmdValid = true ∧ classify s.pins.cmd = .enc .i2c (bits 0x020FA14A#32) ∧
    ∀ j, 1 ≤ j → j ≤ 45 → (s.pinsAt j).rst = false ∧ (s.pinsAt j).tick = true := by
  refine ⟨by decide, inv_of_check (by decide), by decide, by decide, by decide, by decide, ?_⟩
  intro j h1 h2
  interval_cases j <;> exact ⟨rfl, rfl⟩
/-- Two runs that differ in what is offered. -/
theorem test_witness_OfferedWordsDoNotDisturbATrace :
    let s := playing 0x020FA14A#32 43#6 [tickPin, quiet]
    let s' := playing 0x020FA14A#32 43#6 [⟨false, true, true, 0x0008B500#32⟩, offerPin 0#32]
    s.Inv ∧ s.busy = true ∧ proto s.cmdR = some .i2c ∧ s'.cmdR = s.cmdR ∧ s'.busy = s.busy ∧ s'.pos = s.pos ∧
    s'.err = s.err ∧ s'.errCode = s.errCode ∧ s'.done = s.done ∧
    (∀ j < 2, (s'.pinsAt j).rst = (s.pinsAt j).rst ∧ (s'.pinsAt j).tick = (s.pinsAt j).tick) ∧ s.noResetFor 2 ∧
    s.pos.toNat + s.ticksIn 2 ≤ traceLen .i2c :=
  ⟨inv_of_check (by decide), by decide, by decide, by decide, by decide, by decide, by decide, by decide, by decide,
   by decide, noResetFor_of_all (by decide), by decide⟩
/-- After reset, and after a played command and an error. -/
theorem test_witness_HistoryDoesNotReachATrace :
    let s := idleWith [offerPin 0x0008B500#32]
    let s' : State := { s with cmdR := 0x020FA14A#32, err := true, errCode := 0b10#2 }
    s.Inv ∧ s'.Inv ∧ s.busy = false ∧ s'.busy = false ∧ s'.inputs = s.inputs ∧ s'.unscripted = s.unscripted ∧
    s.pins.rst = false ∧ s.pins.cmdValid = true ∧ classify s.pins.cmd = .enc .uart (bits 0x0008B500#32) :=
  ⟨inv_of_check (by decide), inv_of_check (by decide), by decide, by decide, by decide, by decide, by decide, by decide,
   by decide⟩
theorem test_witness_IdleCmdRIsInvisible :
    SameButIdleCmdR (idleWith [quiet]) { idleWith [quiet] with cmdR := 0xFFFFFFFF#32 } :=
  ⟨rfl, rfl, rfl, rfl, rfl, rfl, rfl, fun h => Bool.noConfusion h⟩
theorem test_witness_HostHoldsItsOfferUntilTaken :
    (playing 0x020FA14A#32 44#6 []).Inv ∧ (playing 0x020FA14A#32 44#6 []).busy = true ∧ State.reset.Inv ∧
    State.reset.busy = false := ⟨inv_of_check (by decide), by decide, inv_of_check (by decide), by decide⟩
/-- Fewer and more elements than 16. -/
theorem test_witness_LoaderCarriesThePayload :
    [true] ≠ [] ∧ List.replicate 20 true ≠ [] ∧ (loadLen (List.replicate 20 true)).toNat = 16 := by decide
theorem test_witness_TrimRemovesOnlyTheEnds :
    trim [' '] [' ', '1', ' ', '0', ' '] = ['1', ' ', '0'] := by decide
theorem test_witness_NormalizeReadsBinary :
    trim [' '] [' ', '1', '0'] = ['1', '0'] ∧ (['1', '0'] : List Char) ≠ [] ∧
    (∀ c ∈ ['1', '0'], c = '0' ∨ c = '1') := ⟨by decide, by decide, by simp⟩
/-- The two ends of each range of digits. -/
theorem test_witness_NormalizeReadsHex :
    trim [' '] [' ', '0', '9', 'A', 'F', 'a', 'f'] = ['0', '9', 'A', 'F', 'a', 'f'] ∧
    normalize [' '] [' ', 'F', 'a'] = .ok [true, true, true, true, true, false, true, false] := by decide
/-- An empty string, and the neighbours of the digits. -/
theorem test_witness_NormalizeRefusesTheRest :
    trim [' '] [' '] = [] ∧
    ['/', ':', '@', 'G', '`', 'g', ' '].all
      (fun c => decide (normalize [' '] ['1', c, '1'] = .error .neitherFormat)) = true := by decide
theorem test_witness_TextCommandsAreNeverEmpty :
    textCommand [' '] .i2c ['B', '5'] = .ok (.i2c 8#5 0xB500#16) := rfl

end Sys2Proof.Tests
end

/-! ## The registers after an edge

What one rising edge does, said once with the whole next state, and the statements about single registers read off
it. -/

namespace Sys2Proof.Machine

variable {s t : State}

/-! ### The end of a trace -/

/-- Every sample of the held command's trace has been shown: a tick completes the command (rules R114, R117). -/
def State.TraceShown (s : State) : Prop := ∃ p, proto s.cmdR = some p ∧ traceLen p ≤ s.pos.toNat

/-- While a command plays POS does not pass the end of its trace. -/
theorem State.Inv.traceShown_iff (hi : s.Inv) (hb : s.busy = true) :
    s.TraceShown ↔ ∃ p, proto s.cmdR = some p ∧ s.pos.toNat = traceLen p := by
  constructor
  · rintro ⟨p, hp, hle⟩
    exact ⟨p, hp, Nat.le_antisymm (hi.posWithinTrace hb p hp) hle⟩
  · rintro ⟨p, hp, heq⟩
    exact ⟨p, hp, heq.ge⟩

/-- With a known protocol the end of the trace is a bound on POS. -/
theorem State.traceShown_iff_of_proto {p : Protocol} (hp : proto s.cmdR = some p) :
    s.TraceShown ↔ traceLen p ≤ s.pos.toNat := by
  simp [State.TraceShown, hp]

/-! ### The whole next state, by case -/

/-- The next state of an edge that does not stop, one constructor per branch of rule R114. -/
inductive EdgeEffect (s : State) : State → Prop where
  | reset (hr : s.pins.rst = true) : EdgeEffect s s.nextCycle.resetRegisters
  | illegal (hr : s.pins.rst = false) (hb : s.busy = false) (hv : s.pins.cmdValid = true)
      (hw : classify s.pins.cmd = .illegal) : EdgeEffect s (s.nextCycle.recordError codeIllegal)
  | empty (p : Protocol) (hr : s.pins.rst = false) (hb : s.busy = false) (hv : s.pins.cmdValid = true)
      (hw : classify s.pins.cmd = .empty p) : EdgeEffect s (s.nextCycle.recordError codeEmpty)
  | start (p : Protocol) (b : BitSequence) (hr : s.pins.rst = false) (hb : s.busy = false)
      (hv : s.pins.cmdValid = true) (hw : classify s.pins.cmd = .enc p b) :
      EdgeEffect s (s.nextCycle.startCommand s.pins.cmd)
  | idle (hr : s.pins.rst = false) (hb : s.busy = false) (hv : s.pins.cmdValid = false) :
      EdgeEffect s s.nextCycle.clearDone
  | advance (hr : s.pins.rst = false) (hb : s.busy = true) (ht : s.pins.tick = true) (hn : ¬ s.TraceShown) :
      EdgeEffect s s.nextCycle.advance
  | complete (hr : s.pins.rst = false) (hb : s.busy = true) (ht : s.pins.tick = true) (hn : s.TraceShown) :
      EdgeEffect s s.nextCycle.complete
  | hold (hr : s.pins.rst = false) (hb : s.busy = true) (ht : s.pins.tick = false) :
      EdgeEffect s s.nextCycle.clearDone

/-- Every step that does not stop has one of the effects. -/
theorem edgeEffect_of_step (h : step s = .next t) : EdgeEffect s t := by
  obtain ⟨hr, rfl⟩ | ⟨hr, -, ⟨hb, ht, h⟩ | ⟨hb, hv, h⟩ | ⟨hb, ht, rfl⟩ | ⟨hb, hv, rfl⟩⟩ :=
    step_cases h
  · exact .reset hr
  · obtain ⟨p, hp, hpos⟩ := tickEdge_cases h
    simp only [State.nextCycle_cmdR, State.nextCycle_pos] at hp hpos
    have hend := State.traceShown_iff_of_proto hp
    obtain ⟨hlt, rfl⟩ | ⟨hle, rfl⟩ := hpos
    · exact .advance hr hb ht (by rw [hend]; omega)
    · exact .complete hr hb ht (hend.2 hle)
  · obtain ⟨hw, rfl⟩ | ⟨p, hw, rfl⟩ | ⟨p, hw, rfl⟩ := acceptEdge_cases h (by simpa using hb)
    · exact .illegal hr hb hv hw
    · exact .empty p hr hb hv hw
    · exact .start p _ hr hb hv hw
  · exact .hold hr hb ht
  · exact .idle hr hb hv

/-- Only completion leaves DONE at 1 (rules R29, R119). -/
theorem EdgeEffect.done_iff (h : EdgeEffect s t) :
    t.done = true ↔ s.pins.rst = false ∧ s.busy = true ∧ s.pins.tick = true ∧ s.TraceShown := by
  cases h with
  | reset hr => simp [hr]
  | illegal _ hb | empty _ _ hb | start _ _ _ hb | idle _ hb => simp [hb]
  | advance _ _ _ hn => simp [hn]
  | complete hr hb ht hn => simp [hr, hb, ht, hn]
  | hold _ _ ht => simp [ht]

/-- DONE and BUSY are never set by the same edge. -/
theorem EdgeEffect.busy_eq_false_of_done (h : EdgeEffect s t) (hd : t.done = true) : t.busy = false := by
  cases h with
  | complete => rfl
  | reset | illegal | empty | start | idle | advance | hold => cases hd

/-- BUSY is set by the start of a command and kept until its completion or a reset (rule R25). -/
theorem EdgeEffect.busy_iff (h : EdgeEffect s t) :
    t.busy = true ↔ s.pins.rst = false ∧
      ((s.busy = false ∧ s.pins.cmdValid = true ∧ ∃ p b, classify s.pins.cmd = .enc p b) ∨
       (s.busy = true ∧ ¬ (s.pins.tick = true ∧ s.TraceShown))) := by
  cases h with
  | reset hr => simp [hr]
  | illegal _ hb _ hw | empty _ _ hb _ hw => simp [hb, hw]
  | start _ _ hr hb hv hw => simp [hr, hb, hv, hw]
  | idle _ hb hv => simp [hb, hv]
  | advance hr hb _ hn => simp [hr, hb, hn]
  | complete _ hb ht hn => simp [hb, ht, hn]
  | hold hr hb ht => simp [hr, hb, ht]

/-! ### The inputs an edge looks at -/

/-- The ports carry the first listed levels. -/
theorem State.pins_of_inputs {p : Pins} {rest : List Pins} (hin : s.inputs = p :: rest) : s.pins = p := by
  simp [State.pins, hin]

/-- An edge drops the first listed levels. -/
theorem State.nextCycle_of_inputs {p : Pins} {rest : List Pins} (hin : s.inputs = p :: rest) :
    s.nextCycle = { s with inputs := rest } := by
  simp [State.nextCycle, hin]

/-- Rule R113's priority as independence: a step looks at the tick only while busy, at `cmd_valid` only while not busy,
at `cmd` only when it is offered to a block that is not busy, and at none of them in reset. -/
theorem step_congr_of_pins {s' : State} (hn : s'.nextCycle = s.nextCycle) (hu : s'.unreachable = s.unreachable)
    (hr : s'.pins.rst = s.pins.rst)
    (ht : s.pins.rst = false → s.busy = true → s'.pins.tick = s.pins.tick)
    (hv : s.pins.rst = false → s.busy = false → s'.pins.cmdValid = s.pins.cmdValid)
    (hc : s.pins.rst = false → s.busy = false → s.pins.cmdValid = true → s'.pins.cmd = s.pins.cmd) :
    step s' = step s := by
  have hbusy : s'.busy = s.busy := by simpa using congrArg State.busy hn
  unfold step clockEdge
  rw [hn, hu, hr, hbusy]
  by_cases hrst : s.pins.rst = true
  · rw [if_pos hrst, if_pos hrst]
  · have hrst' : s.pins.rst = false := by simpa using hrst
    cases hb : s.busy with
    | true => rw [ht hrst' hb]; rfl
    | false =>
      rw [hv hrst' hb]
      cases hval : s.pins.cmdValid with
      | true => rw [hc hrst' hb hval]; rfl
      | false => rfl

/-- The same, with other levels put on the ports of a listed cycle. -/
theorem step_congr_of_listed_pins {p : Pins} {rest : List Pins} (hin : s.inputs = p :: rest) (q : Pins)
    (hr : q.rst = p.rst) (ht : p.rst = false → s.busy = true → q.tick = p.tick)
    (hv : p.rst = false → s.busy = false → q.cmdValid = p.cmdValid)
    (hc : p.rst = false → s.busy = false → p.cmdValid = true → q.cmd = p.cmd) :
    step { s with inputs := q :: rest } = step s := by
  obtain rfl := State.pins_of_inputs hin
  exact step_congr_of_pins (State.nextCycle_of_inputs hin).symm rfl hr ht hv hc

/-- A block that goes on and is ready takes the word it is offered (rule R30). -/
theorem step_of_offer (hu : s.unreachable = none) (hv : s.pins.cmdValid = true) (hready : s.cmdReadyOut = true) :
    step s = acceptEdge s.pins.cmd s.nextCycle := by
  obtain ⟨hb, hr⟩ : s.busy = false ∧ s.pins.rst = false := by simpa [State.cmdReadyOut] using hready
  simp [step, clockEdge, hr, hu, hb, hv]

/-! ### The statements of the state family -/

/-- Settles O30: DONE is read off the effect of the edge, and the next edge starts with BUSY = 0. -/
theorem doneIsAOneCyclePulse : Obligations.DoneIsAOneCyclePulse := by
  intro s t hi h
  have he := edgeEffect_of_step h
  constructor
  · rw [he.done_iff]
    exact and_congr_right fun _ => and_congr_right fun hb => and_congr_right fun _ => hi.traceShown_iff hb
  · intro hd u hu
    by_contra hne
    obtain ⟨-, hb, -, -⟩ := (edgeEffect_of_step hu).done_iff.1 (by simpa using hne)
    simp [he.busy_eq_false_of_done hd] at hb

/-- Settles O31: BUSY is read off the effect of the edge. -/
theorem busyFromAcceptanceToCompletion : Obligations.BusyFromAcceptanceToCompletion := by
  intro s t hi h
  rw [(edgeEffect_of_step h).busy_iff]
  exact and_congr_right fun _ => or_congr_right <| and_congr_right fun hb =>
    not_congr <| and_congr_right fun _ => hi.traceShown_iff hb

/-- Settles O33, effect by effect: the four writes and the four edges that write nothing. -/
theorem errorStatusIsWrittenOnlyByAcceptance : Obligations.ErrorStatusIsWrittenOnlyByAcceptance := by
  intro s t _ h
  cases edgeEffect_of_step h with
  | reset hr => simp [hr, codeNone]
  | illegal hr hb hv hw => simp [hr, hb, hv, hw, codeIllegal, errOfCode, codeNone]
  | empty p hr hb hv hw => simp [hr, hb, hv, hw, codeEmpty, errOfCode, codeNone]
  | start p b hr hb hv hw => simp [hr, hb, hv, hw, codeNone]
  | idle hr hb hv => simp [hr, hv]
  | advance hr hb | complete hr hb | hold hr hb => simp [hr, hb]

/-- Settles O34: an offer to a ready block is accepted, and otherwise the step does not look at it. -/
theorem offerIsTakenExactlyWhenReady : Obligations.OfferIsTakenExactlyWhenReady := by
  intro s p rest hi hin
  have hp : s.pins = p := State.pins_of_inputs hin
  have hready : s.cmdReadyOut = true ↔ s.busy = false ∧ p.rst = false := by simp [State.cmdReadyOut, hp]
  refine ⟨hready, fun hv hrd => ?_, fun hnot v w => ?_, fun hv w => ?_⟩
  · rw [step_of_offer hi.unreachable_eq_none (by rw [hp, hv]) hrd, hp, State.nextCycle_of_inputs hin]
  · have hbusy : p.rst = false → s.busy ≠ false := fun hr hb => by simp [hready.2 ⟨hb, hr⟩] at hnot
    exact step_congr_of_listed_pins hin { p with cmdValid := v, cmd := w } rfl (fun _ _ => rfl)
      (fun hr hb => absurd hb (hbusy hr)) (fun hr hb => absurd hb (hbusy hr))
  · exact step_congr_of_listed_pins hin { p with cmd := w } rfl (fun _ _ => rfl) (fun _ _ => rfl)
      (fun _ _ hv' => by simp [hv] at hv')

/-- Settles O36: the outputs are the registers by definition. -/
theorem statusOutputsShowRegisters : Obligations.StatusOutputsShowRegisters :=
  fun _ => ⟨rfl, rfl, rfl, rfl, rfl⟩

end Sys2Proof.Machine

/-! ## The assembler and the formula of rule R86

When a source form stands for a command, the command's word as the number of rule R86, and what each line form emits. -/

namespace Sys2Proof.Machine

/-! ### Source commands -/

/-- Well-formedness is the two bounds of rule R85. -/
@[simp] theorem sourceCommand_wellFormed_iff (c : SourceCommand) :
    c.wellFormed = true ↔ c.len ≤ 31 ∧ c.payload ≤ 0xFFFF := by
  simp [SourceCommand.wellFormed, SourceCommand.lenInRange, SourceCommand.payloadInRange]

/-- Operands in range are the two fields of the command. -/
theorem toInstr?_of_inRange {c : SourceCommand} (hl : c.len ≤ 31) (hd : c.payload ≤ 0xFFFF) :
    c.toInstr? = some (Instr.ofProtocol c.protocol (BitVec.ofNat 5 c.len) (BitVec.ofNat 16 c.payload)) := by
  simp [SourceCommand.toInstr?, hl, hd]

/-- An operand out of range leaves no command (rule R85). -/
theorem toInstr?_eq_none_iff (c : SourceCommand) : c.toInstr? = none ↔ 31 < c.len ∨ 0xFFFF < c.payload := by
  simp only [SourceCommand.toInstr?, sourceCommand_wellFormed_iff, ite_eq_right_iff, reduceCtorEq, imp_false]
  omega

/-! ### The word -/

/-- The fields of rule R86's formula do not overlap, so its ors are sums. -/
theorem shiftedFields_eq_sum {code len payload : Nat} (hl : len ≤ 31) (hd : payload ≤ 0xFFFF) :
    (code <<< 24) ||| (len <<< 16) ||| payload = code * 2 ^ 24 + len * 2 ^ 16 + payload := by
  have hlow : len * 2 ^ 16 + payload < 2 ^ 24 := by omega
  rw [Nat.or_assoc, Nat.shiftLeft_eq, Nat.shiftLeft_eq, shifted_or_eq_add len payload 16 (by omega),
    shifted_or_eq_add code _ 24 hlow, Nat.add_assoc]

/-- The word of in-range operands is rule R86's formula. -/
theorem commandWord_eq_shiftedFields (p : Protocol) {len payload : Nat} (hl : len ≤ 31) (hd : payload ≤ 0xFFFF) :
    commandWord p (BitVec.ofNat 5 len) (BitVec.ofNat 16 payload)
      = BitVec.ofNat 32 (((protoCode p).toNat <<< 24) ||| (len <<< 16) ||| payload) := by
  have hcode := (protoCode p).isLt
  apply BitVec.eq_of_toNat_eq
  simp only [toNat_commandWord, shiftedFields_eq_sum hl hd, BitVec.toNat_ofNat]
  omega

/-! ### Lines -/

theorem assembleLine_command_of_inRange (ts : List Char) {c : SourceCommand} (hl : c.len ≤ 31)
    (hd : c.payload ≤ 0xFFFF) :
    assembleLine ts (.command c)
      = .ok [.offer (BitVec.ofNat 32 (((protoCode c.protocol).toNat <<< 24) ||| (c.len <<< 16) ||| c.payload))] := by
  simp only [assembleLine, toInstr?_of_inRange hl hd, encode, protocol_ofProtocol, len_ofProtocol,
    payload_ofProtocol, commandWord_eq_shiftedFields c.protocol hl hd]

theorem assembleLine_command_of_outOfRange (ts : List Char) {c : SourceCommand}
    (h : 31 < c.len ∨ 0xFFFF < c.payload) : assembleLine ts (.command c) = .error .operandRange := by
  simp only [assembleLine, (toInstr?_eq_none_iff c).2 h]

/-- A raw word is emitted unchanged (rule R86). -/
theorem assembleLine_word (ts : List Char) (w : Word) : assembleLine ts (.word w.toNat) = .ok [.offer w] := by
  simp [assembleLine, w.isLt]

/-- Settles O4, line form by line form; the listed PROTO values are the model's. -/
theorem assemblerEncodesOrRefuses : Obligations.AssemblerEncodesOrRefuses := by
  intro ts p code len payload w hp
  have hcode : code = (protoCode p).toNat := by
    simp only [List.mem_cons, Prod.mk.injEq, List.not_mem_nil, or_false] at hp
    obtain ⟨rfl, rfl⟩ | ⟨rfl, rfl⟩ | ⟨rfl, rfl⟩ := hp <;> rfl
  subst hcode
  exact ⟨fun hl hd => assembleLine_command_of_inRange ts hl hd, fun h => assembleLine_command_of_outOfRange ts h,
    assembleLine_word ts w⟩

end Sys2Proof.Machine

/-! ## Traces and what a word carries

Which words have a payload, which elements of it an encoder reads, and how long the Signals are (rules R77 to R81, R101,
R109, R110). -/

namespace Sys2Proof.Machine

/-! ### Words and their payload -/

/-- LEN as a number (rules R70, R74). -/
theorem toNat_lenField (w : Word) : (lenField w).toNat = w.toNat / 2 ^ 16 % 2 ^ 5 := by
  simp [lenField, BitVec.extractLsb'_toNat, Nat.shiftRight_eq_div_pow]

/-- A word carries no element exactly when LEN = 0. -/
theorem bits_eq_nil_iff (w : Word) : bits w = [] ↔ lenField w = 0#5 := by
  rw [← List.length_eq_zero_iff, length_bits, elementCount, ← BitVec.toNat_inj]
  simp only [BitVec.toNat_ofNat]
  omega

/-- The legal, non-empty words: rule R81's last line, read backwards. -/
theorem classify_eq_enc_iff (w : Word) (p : Protocol) (b : BitSequence) :
    classify w = .enc p b ↔
      resHiField w = 0#6 ∧ resLoField w = 0#3 ∧ proto w = some p ∧ lenField w ≠ 0#5 ∧ b = bits w := by
  by_cases hh : resHiField w = 0#6
  · by_cases hl : resLoField w = 0#3
    · cases hp : proto w with
      | none => simp [classify, hh, hl, hp]
      | some q => by_cases h0 : lenField w = 0#5 <;> simp [classify, hh, hl, hp, h0, eq_comm]
    · simp [classify, hl]
  · simp [classify, hh]

/-- A legal, non-empty word carries at least one element. -/
theorem bits_ne_nil_of_classify {w : Word} {p : Protocol} {b : BitSequence} (h : classify w = .enc p b) :
    bits w ≠ [] := by
  obtain ⟨-, -, -, hlen, -⟩ := (classify_eq_enc_iff w p b).1 h
  exact fun hnil => hlen ((bits_eq_nil_iff w).1 hnil)

/-! ### The encoders -/

/-- Only the empty payload fails (rule R101). -/
theorem encodeTrace_ok_of_ne_nil (p : Protocol) {b : BitSequence} (hb : b ≠ []) :
    ∃ tr, encodeTrace p b = .ok tr := by
  cases p <;> simp [encodeTrace, hb]

/-- The trace of a legal, non-empty word is what its protocol's encoder makes of its payload. -/
theorem trace_of_classify {w : Word} {p : Protocol} {b : BitSequence} (h : classify w = .enc p b) :
    trace w = (encodeTrace p (bits w)).toOption := by
  obtain ⟨-, -, -, -, rfl⟩ := (classify_eq_enc_iff w p b).1 h
  simp only [trace, h]

/-- A word without a payload has no trace. -/
theorem trace_of_bits_eq_nil {w : Word} (h : bits w = []) : trace w = none := by
  cases hc : classify w with
  | illegal | empty p => simp only [trace, hc]
  | enc p b => exact absurd h (bits_ne_nil_of_classify hc)

/-- Padding and truncation read the elements below the width alone. -/
theorem fit_congr {n : Nat} {b b' : BitSequence} (h : ∀ i < n, b.getD i false = b'.getD i false) :
    fit n b = fit n b' := by
  apply List.ext_getElem (by simp)
  intro i hi hi'
  rw [getElem_fit, getElem_fit]
  exact h i (by simpa using hi)

/-- The same for the elements from `a` on. -/
theorem fit_slice_congr {a n : Nat} {b b' : BitSequence}
    (h : ∀ i < n, b.getD (a + i) false = b'.getD (a + i) false) :
    fit n (slice b a (a + n)) = fit n (slice b' a (a + n)) := by
  refine fit_congr fun i hi => ?_
  rw [getD_slice _ _ _ _ (by omega), getD_slice _ _ _ _ (by omega)]
  exact h i hi

/-- A UART frame reads 8 elements (rule R141). -/
theorem encodeUart_congr {b b' : BitSequence} (h : ∀ i < 8, b.getD i false = b'.getD i false) :
    encodeUart b = encodeUart b' := by
  have hfit : fit Config.uartWidth b = fit Config.uartWidth b' := fit_congr h
  simp only [encodeUart, uartFrame, hfit]

/-- An SPI transfer reads 8 elements (rule R161). -/
theorem encodeSpi_congr {b b' : BitSequence} (h : ∀ i < 8, b.getD i false = b'.getD i false) :
    encodeSpi b = encodeSpi b' := by
  have hfit : fit Config.spiWidth b = fit Config.spiWidth b' := fit_congr h
  simp only [encodeSpi, spiData, hfit]

/-- An I²C write reads 15 elements: 7 of address and 8 of data (rules R181, R182). -/
theorem encodeI2c_congr {b b' : BitSequence} (h : ∀ i < 15, b.getD i false = b'.getD i false) :
    encodeI2c b = encodeI2c b' := by
  have haddr : i2cAddress b = i2cAddress b' :=
    fit_slice_congr (a := 0) (n := 7) fun i hi => h (0 + i) (by omega)
  have hdata : i2cData b = i2cData b' :=
    fit_slice_congr (a := 7) (n := 8) fun i hi => h (7 + i) (by omega)
  simp only [encodeI2c, i2cSequence, haddr, hdata]

/-- No encoder reads past element 14. -/
theorem encodeTrace_congr (p : Protocol) {b b' : BitSequence} (hb : b ≠ []) (hb' : b' ≠ [])
    (h : ∀ i < 15, b.getD i false = b'.getD i false) : encodeTrace p b = encodeTrace p b' := by
  have h8 : ∀ i < 8, b.getD i false = b'.getD i false := fun i hi => h i (by omega)
  cases p with
  | uart => simp [encodeTrace, hb, hb', encodeUart_congr h8]
  | spi => simp [encodeTrace, hb, hb', encodeSpi_congr h8]
  | i2c => simp [encodeTrace, hb, hb', encodeI2c_congr h]

/-- Equal `min(LEN, 15)` and equal elements below it leave the same first 15 padded elements. -/
theorem e16_congr {w w' : Word} (hlen : min (lenField w).toNat 15 = min (lenField w').toNat 15)
    (hel : ∀ i < min (lenField w).toNat 15, w.getLsbD (15 - i) = w'.getLsbD (15 - i)) {i : Nat} (hi : i < 15) :
    e16 w i = e16 w' i := by
  by_cases hlt : i < (lenField w).toNat
  · have hlt' : i < (lenField w').toNat := by omega
    simp only [e16, if_pos hlt, if_pos hlt']
    exact hel i (by omega)
  · have hlt' : ¬ i < (lenField w').toNat := by omega
    simp only [e16, if_neg hlt, if_neg hlt']

/-! ### The length of a trace -/

@[simp] theorem length_onWire (o : Config.BitOrder) (d : BitSequence) : (onWire o d).length = d.length := by
  cases o <;> simp [onWire]

@[simp] theorem length_bothHalves (b : Level) : (bothHalves b).length = 2 := rfl

@[simp] theorem length_uartFrame (b : BitSequence) : (uartFrame b).length = 10 := by
  simp [uartFrame, Config.uartWidth]

@[simp] theorem length_spiSs : spiSs.length = 20 := rfl

@[simp] theorem length_spiSclk : spiSclk.length = 20 := rfl

@[simp] theorem length_spiMosi_spiData (b : BitSequence) : (spiMosi (spiData b)).length = 20 := by
  simp [spiMosi, spiData, Config.spiWidth]

@[simp] theorem length_i2cSequence (b : BitSequence) : (i2cSequence b).length = 18 := by
  simp [i2cSequence, i2cAddress, i2cData, Config.i2cAddrWidth, Config.i2cDataWidth]

@[simp] theorem length_i2cScl (q : BitSequence) : (i2cScl q).length = q.length * 2 + 8 := by
  simp [i2cScl]; omega

@[simp] theorem length_i2cSda (q : BitSequence) : (i2cSda q).length = q.length * 2 + 8 := by
  simp [i2cSda]; omega

/-- Every Signal of a trace set is there and has the protocol's length (rule R109). -/
theorem levelsOf_encodeTrace {n : SignalName} {b : BitSequence} {tr : SignalTraceSet}
    (h : encodeTrace n.protocol b = .ok tr) :
    ∃ l, tr.levelsOf n = some l ∧ l.length = traceLen n.protocol := by
  have hb : b ≠ [] := fun hnil => by simp [encodeTrace, hnil] at h
  cases n with
  | tx =>
    obtain rfl : encodeUart b = tr := by simpa [encodeTrace, hb, SignalName.protocol] using h
    exact ⟨_, rfl, by simp [traceLen, SignalName.protocol, Config.nUart]⟩
  | ss | sclk | mosi =>
    obtain rfl : encodeSpi b = tr := by simpa [encodeTrace, hb, SignalName.protocol] using h
    exact ⟨_, rfl, by simp [traceLen, SignalName.protocol, Config.nSpi]⟩
  | scl | sda =>
    obtain rfl : encodeI2c b = tr := by simpa [encodeTrace, hb, SignalName.protocol] using h
    exact ⟨_, rfl, by simp [traceLen, SignalName.protocol, Config.nI2c]⟩

/-- A legal, non-empty word has a sample at every index of its trace (rule R124). -/
theorem sample_isSome {w : Word} {n : SignalName} {b : BitSequence} {k : Nat}
    (hc : classify w = .enc n.protocol b) (hk : k < traceLen n.protocol) : ∃ v, sample w n k = some v := by
  obtain ⟨tr, htr⟩ := encodeTrace_ok_of_ne_nil n.protocol (bits_ne_nil_of_classify hc)
  obtain ⟨l, hl, hlen⟩ := levelsOf_encodeTrace htr
  have ht : trace w = some tr := by rw [trace_of_classify hc, htr]; rfl
  exact ⟨l[k], by simp [sample, ht, hl, hlen, hk]⟩

/-! ### The statements about traces -/

/-- Settles O6: the encoders read 15 padded elements, and the two words agree in them. -/
theorem ignoredBitsChangeNoTrace : Obligations.IgnoredBitsChangeNoTrace := by
  intro w w' p b b' hc hc' hlen hel
  have hbits : ∀ i < 15, (bits w).getD i false = (bits w').getD i false := by
    intro i hi
    rw [getD_bits w i (by omega), getD_bits w' i (by omega)]
    exact e16_congr hlen hel hi
  rw [trace_of_classify hc, trace_of_classify hc',
    encodeTrace_congr p (bits_ne_nil_of_classify hc) (bits_ne_nil_of_classify hc') hbits]

/-- Settles O7: an empty payload is LEN = 0, for which `classify` has no encode and `exec` records EMPTY. -/
theorem emptyPayloadHasNoTrace : Obligations.EmptyPayloadHasNoTrace := by
  refine ⟨fun p => rfl, fun w => ⟨?_, trace_of_bits_eq_nil⟩, fun i s hb hnil => ?_,
    fun p b hb => encodeTrace_ok_of_ne_nil p hb⟩
  · rw [bits_eq_nil_iff, ← toNat_lenField, ← BitVec.toNat_inj]
    rfl
  · have hlen : i.len = 0#5 := by simpa [encode] using (bits_eq_nil_iff (encode i)).1 hnil
    rw [exec_eq_offerCommand, hlen, offerCommand_empty _ _ hb]
    rfl

end Sys2Proof.Machine

/-! ## The lines and the next-state function

When the lines are idle, that every state of the invariant has six levels to show, and the whole next state as rule R114
writes it (rules R113 to R118, R123 to R125). -/

namespace Sys2Proof.Machine

variable {s t : State}

/-! ### Lines -/

/-- A line shows its idle level while no sample of its protocol is on it (rule R125). -/
theorem State.line_of_not_playing {n : SignalName} (h : s.active = true → proto s.cmdR ≠ some n.protocol) :
    s.line n = some n.idleLevel := by
  rw [State.line, if_neg]
  simpa using h

/-- No line plays while the block is not busy or before the first tick. -/
theorem State.active_eq_false (h : s.busy = false ∨ s.pos = 0#6) : s.active = false := by
  obtain h | h := h <;> simp [State.active, h]

/-- The six lines together, from the level of each. -/
theorem State.lines_of_line {tx ss sclk mosi scl sda : Level} (hu : s.unreachable = none)
    (htx : s.line .tx = some tx) (hss : s.line .ss = some ss) (hsclk : s.line .sclk = some sclk)
    (hmosi : s.line .mosi = some mosi) (hscl : s.line .scl = some scl) (hsda : s.line .sda = some sda) :
    s.lines = some ⟨tx, ss, sclk, mosi, scl, sda⟩ := by
  simp only [State.lines, hu, htx, hss, hsclk, hmosi, hscl, hsda]

/-- All lines are idle while no sample is shown (rule R125). -/
theorem State.Inv.lines_of_inactive (hi : s.Inv) (ha : s.active = false) :
    s.lines = some ⟨true, true, false, false, true, true⟩ := by
  have hidle : ∀ n : SignalName, s.line n = some n.idleLevel := fun n =>
    State.line_of_not_playing fun h => by simp [ha] at h
  exact State.lines_of_line hi.unreachable_eq_none (hidle _) (hidle _) (hidle _) (hidle _) (hidle _) (hidle _)

/-- Every line has a level: while a command plays, POS is within its trace (rule R123). -/
theorem State.Inv.line_isSome (hi : s.Inv) (n : SignalName) : ∃ v, s.line n = some v := by
  by_cases hplay : s.active = true ∧ proto s.cmdR = some n.protocol
  · obtain ⟨hact, hp⟩ := hplay
    obtain ⟨hb, hpos⟩ : s.busy = true ∧ 1 ≤ s.pos.toNat := by simpa [State.active] using hact
    have hle := hi.posWithinTrace hb _ hp
    rw [State.line, if_pos (by simp [hact, hp])]
    exact sample_isSome (hi.classify_held hb hp) (by omega)
  · exact ⟨_, State.line_of_not_playing fun ha hp => hplay ⟨ha, hp⟩⟩

/-- The lines are a function of CMD_R, BUSY and POS (rules R37, R123). -/
theorem State.lines_congr (hu : t.unreachable = s.unreachable) (hc : t.cmdR = s.cmdR) (hb : t.busy = s.busy)
    (hp : t.pos = s.pos) : t.lines = s.lines := by
  have hline : ∀ n, t.line n = s.line n := fun n => by
    rw [State.line, State.line, State.active, State.active, hc, hb, hp]
  simp only [State.lines, hu, hline]

/-- Settles O37: a line that is not playing is idle, and every line has a level. -/
theorem linesIdleUnlessPlaying : Obligations.LinesIdleUnlessPlaying := by
  intro s hi
  refine ⟨fun h => hi.lines_of_inactive (State.active_eq_false h), ?_⟩
  obtain ⟨tx, htx⟩ := hi.line_isSome .tx
  obtain ⟨ss, hss⟩ := hi.line_isSome .ss
  obtain ⟨sclk, hsclk⟩ := hi.line_isSome .sclk
  obtain ⟨mosi, hmosi⟩ := hi.line_isSome .mosi
  obtain ⟨scl, hscl⟩ := hi.line_isSome .scl
  obtain ⟨sda, hsda⟩ := hi.line_isSome .sda
  have hidle : ∀ {n : SignalName} {v : Level}, s.line n = some v → proto s.cmdR ≠ some n.protocol →
      v = n.idleLevel := fun hv hp => Option.some.inj (hv.symm.trans (State.line_of_not_playing fun _ => hp))
  exact ⟨_, State.lines_of_line hi.unreachable_eq_none htx hss hsclk hmosi hscl hsda, hidle htx,
    fun hp => ⟨hidle hss hp, hidle hsclk hp, hidle hmosi hp⟩, fun hp => ⟨hidle hscl hp, hidle hsda hp⟩⟩

/-! ### The next state -/

/-- The registers after the acceptance of a word, by its class (rule R115). -/
def State.takeWord (s : State) (w : Word) : State :=
  match classify w with
  | .illegal => s.recordError codeIllegal
  | .empty _ => s.recordError codeEmpty
  | .enc _ _ => s.startCommand w

theorem State.takeWord_of_illegal {w : Word} (h : classify w = .illegal) :
    s.takeWord w = s.recordError codeIllegal := by simp only [State.takeWord, h]

theorem State.takeWord_of_empty {w : Word} {p : Protocol} (h : classify w = .empty p) :
    s.takeWord w = s.recordError codeEmpty := by simp only [State.takeWord, h]

theorem State.takeWord_of_enc {w : Word} {p : Protocol} {b : BitSequence} (h : classify w = .enc p b) :
    s.takeWord w = s.startCommand w := by simp only [State.takeWord, h]

/-- An offered command always has a next state. -/
theorem offerCommand_isNext (p : Protocol) (l : BitVec 5) (d : BitVec 16) (s : State) :
    ∃ t, offerCommand p l d s = .next t := by
  unfold offerCommand
  split
  · exact ⟨_, rfl⟩
  · split <;> exact ⟨_, rfl⟩

/-- So does every word on `cmd` (rules R235, R238). -/
theorem acceptEdge_isNext (w : Word) (s : State) : ∃ t, acceptEdge w s = .next t := by
  unfold acceptEdge
  cases decode w with
  | error why => exact ⟨_, rfl⟩
  | ok i =>
    simp only [exec_eq_offerCommand]
    exact offerCommand_isNext _ _ _ _

/-- Acceptance takes the word. -/
theorem acceptEdge_eq_takeWord (w : Word) (hb : s.busy = false) : acceptEdge w s = .next (s.takeWord w) := by
  obtain ⟨t, ht⟩ := acceptEdge_isNext w s
  obtain ⟨hw, rfl⟩ | ⟨p, hw, rfl⟩ | ⟨p, hw, rfl⟩ := acceptEdge_cases ht hb
  · rw [ht, State.takeWord_of_illegal hw]
  · rw [ht, State.takeWord_of_empty hw]
  · rw [ht, State.takeWord_of_enc hw]

/-- A tick of a known protocol has a next state. -/
theorem tickEdge_isNext {p : Protocol} (hp : proto s.cmdR = some p) : ∃ t, tickEdge s = .next t := by
  unfold tickEdge
  rw [hp]
  by_cases hlt : s.pos.toNat < traceLen p
  · exact ⟨_, if_pos hlt⟩
  · exact ⟨_, if_neg hlt⟩

/-- Reset comes first, in any state (rules R113, R260). -/
theorem step_of_reset (hr : s.pins.rst = true) : step s = .next s.nextCycle.resetRegisters := by
  simp [step, clockEdge, hr]

/-- A tick is looked at while busy (rule R113). -/
theorem step_of_tick (hu : s.unreachable = none) (hr : s.pins.rst = false) (hb : s.busy = true)
    (ht : s.pins.tick = true) : step s = tickEdge s.nextCycle := by
  simp [step, clockEdge, hr, hu, hb, ht]

/-- An edge with neither reset, acceptance nor a tick while busy (rule R118). -/
theorem step_of_hold (hu : s.unreachable = none) (hr : s.pins.rst = false)
    (hquiet : (s.busy = true ∧ s.pins.tick = false) ∨ (s.busy = false ∧ s.pins.cmdValid = false)) :
    step s = .next s.nextCycle.clearDone := by
  obtain ⟨hb, ht⟩ | ⟨hb, hv⟩ := hquiet
  · simp [step, clockEdge, hr, hu, hb, ht, holdEdge]
  · simp [step, clockEdge, hr, hu, hb, hv, holdEdge]

/-- A block of the invariant takes the word it is offered when it is ready (rule R115). -/
theorem State.Inv.step_eq_takeWord (hi : s.Inv) (hr : s.pins.rst = false) (hb : s.busy = false)
    (hv : s.pins.cmdValid = true) : step s = .next (s.nextCycle.takeWord s.pins.cmd) := by
  rw [step_of_offer hi.unreachable_eq_none hv (by simp [State.cmdReadyOut, hb, hr]),
    acceptEdge_eq_takeWord _ (by simpa using hb)]

/-- Every state of the invariant goes on. -/
theorem State.Inv.step_isNext (hi : s.Inv) : ∃ t, step s = .next t := by
  have hu := hi.unreachable_eq_none
  cases hr : s.pins.rst with
  | true => exact ⟨_, step_of_reset hr⟩
  | false =>
    cases hb : s.busy with
    | true =>
      cases ht : s.pins.tick with
      | true =>
        obtain ⟨p, hp⟩ := hi.proto_isSome hb
        rw [step_of_tick hu hr hb ht]
        exact tickEdge_isNext (p := p) (by simpa using hp)
      | false => exact ⟨_, step_of_hold hu hr (.inl ⟨hb, ht⟩)⟩
    | false =>
      cases hv : s.pins.cmdValid with
      | true => exact ⟨_, hi.step_eq_takeWord hr hb hv⟩
      | false => exact ⟨_, step_of_hold hu hr (.inr ⟨hb, hv⟩)⟩

/-- An advance adds 1 to the POS of the edge (rule R116). -/
theorem State.nextCycle_advance (s : State) :
    s.nextCycle.advance = { s.nextCycle with done := false, pos := s.pos + 1#6 } := by
  rw [State.advance, State.nextCycle_pos]
  rfl

/-- Settles O23: there is a next state, and each effect an edge can have is its branch of rule R114. -/
theorem stepIsTheNextStateFunction : Obligations.StepIsTheNextStateFunction := by
  intro s hi
  obtain ⟨t, ht⟩ := hi.step_isNext
  rw [ht]
  cases edgeEffect_of_step ht with
  | reset hr => simp only [hr]; rfl
  | illegal hr hb hv hw | empty p hr hb hv hw | start p b hr hb hv hw => simp only [hr, hb, hv, hw]; rfl
  | idle hr hb hv => simp only [hr, hb, hv]; rfl
  | advance hr hb htick hn =>
    obtain ⟨p, hp⟩ := hi.proto_isSome hb
    have hlt : s.pos.toNat < traceLen p := by simpa [State.traceShown_iff_of_proto hp] using hn
    rw [State.nextCycle_advance]
    simp only [hr, hb, htick, hp, Bool.false_eq_true, Bool.true_eq_false, if_true, if_false]
    rw [if_pos (by cases p <;> exact hlt)]
  | complete hr hb htick hn =>
    obtain ⟨p, hp⟩ := hi.proto_isSome hb
    have hge : ¬ s.pos.toNat < traceLen p := by simpa [State.traceShown_iff_of_proto hp] using hn
    simp only [hr, hb, htick, hp, Bool.false_eq_true, Bool.true_eq_false, if_true, if_false]
    rw [if_neg (by cases p <;> exact hge)]
    rfl
  | hold hr hb htick => simp only [hr, hb, htick]; rfl

/-! ### Acceptance -/

/-- An error recorded by a block that is not busy leaves it not busy (rule R235). -/
theorem recordError_eq_of_not_busy (hb : s.busy = false) (code : BitVec 2) :
    s.recordError code = { s with busy := false, err := errOfCode code, errCode := code, done := false } :=
  State.ext rfl hb rfl rfl rfl rfl rfl rfl

/-- The state an acceptance leaves meets the invariant, whatever came before. -/
theorem inv_startCommand {w : Word} {p : Protocol} {b : BitSequence} (hc : classify w = .enc p b) (s : State) :
    (s.startCommand w).Inv := by
  obtain ⟨hh, hl, hp, hlen, -⟩ := (classify_eq_enc_iff w p b).1 hc
  exact {
    heldWordDecodes := fun _ => ⟨_, by simp [decode, hh, hl, hp]; rfl⟩
    posWithinTrace := fun _ _ _ => Nat.zero_le _
    posZeroWhenNotBusy := fun _ => rfl
    errCodeProduced := by simp [codeNone]
    errIffCode := by simp [codeNone]
    doneNotBusy := nofun
    heldWordNonEmpty := fun _ => hlen
    noErrorWhilePlaying := fun _ => rfl }

/-! ### Hold -/

/-- `t` has the registers of `s`, up to DONE. -/
structure SameButDone (s t : State) : Prop where
  cmdR : t.cmdR = s.cmdR
  busy : t.busy = s.busy
  pos : t.pos = s.pos
  err : t.err = s.err
  errCode : t.errCode = s.errCode

theorem SameButDone.refl (s : State) : SameButDone s s := ⟨rfl, rfl, rfl, rfl, rfl⟩

theorem SameButDone.trans {u : State} (h : SameButDone s t) (h' : SameButDone t u) : SameButDone s u :=
  ⟨h'.cmdR.trans h.cmdR, h'.busy.trans h.busy, h'.pos.trans h.pos, h'.err.trans h.err, h'.errCode.trans h.errCode⟩

/-- A hold edge changes DONE alone. -/
theorem sameButDone_hold (s : State) : SameButDone s s.nextCycle.clearDone :=
  ⟨s.nextCycle_cmdR, s.nextCycle_busy, s.nextCycle_pos, s.nextCycle_err, s.nextCycle_errCode⟩

/-- The invariant asks of DONE only that it is 0 while busy. -/
theorem SameButDone.inv (h : SameButDone s t) (hi : s.Inv) (hd : t.done = false) : t.Inv where
  heldWordDecodes := by simpa only [h.busy, h.cmdR] using hi.heldWordDecodes
  posWithinTrace := by simpa only [h.busy, h.cmdR, h.pos] using hi.posWithinTrace
  posZeroWhenNotBusy := by simpa only [h.busy, h.pos] using hi.posZeroWhenNotBusy
  errCodeProduced := by simpa only [h.errCode] using hi.errCodeProduced
  errIffCode := by simpa only [h.err, h.errCode] using hi.errIffCode
  doneNotBusy := by simp [hd]
  heldWordNonEmpty := by simpa only [h.busy, h.cmdR] using hi.heldWordNonEmpty
  noErrorWhilePlaying := by simpa only [h.busy, h.err] using hi.noErrorWhilePlaying

/-- The lines do not show DONE. -/
theorem SameButDone.lines_eq (h : SameButDone s t) (hi : s.Inv) (hit : t.Inv) : t.lines = s.lines :=
  State.lines_congr (by rw [hit.unreachable_eq_none, hi.unreachable_eq_none]) h.cmdR h.busy h.pos

/-- A run that goes on, taken apart at its first edge. -/
theorem runSteps_succ_cases {k : Nat} (h : runSteps (k + 1) s = .next t) :
    ∃ u, step s = .next u ∧ runSteps k u = .next t := by
  rw [runSteps_succ] at h
  cases hs : step s with
  | next u => exact ⟨u, rfl, by simpa only [hs] using h⟩
  | fault r => exact nomatch r
  | refused r => simp [hs] at h

/-- After a run of `k` edges the `j`-th cycle is what the `j + k`-th was before it. -/
theorem pinsAt_runSteps {k : Nat} (h : runSteps k s = .next t) (j : Nat) : t.pinsAt j = s.pinsAt (j + k) := by
  induction k generalizing s with
  | zero =>
    obtain rfl : s = t := by simpa using h
    rfl
  | succ k ih =>
    obtain ⟨u, hu, hrun⟩ := runSteps_succ_cases h
    rw [ih hrun, pinsAt_step hu, Nat.add_assoc]

/-- Hold over any number of edges: a busy block that sees no reset and no tick keeps its registers (rule R118). -/
theorem State.Inv.hold_run {k : Nat} (hi : s.Inv) (hb : s.busy = true) (hr : s.noResetFor k)
    (ht : s.ticksIn k = 0) : ∃ t, runSteps k s = .next t ∧ t.Inv ∧ SameButDone s t := by
  induction k with
  | zero => exact ⟨s, rfl, hi, .refl s⟩
  | succ k ih =>
    obtain ⟨hticks, hlast⟩ : s.ticksIn k = 0 ∧ (s.pinsAt k).tick = false := by
      simpa [State.ticksIn] using ht
    obtain ⟨t, hrun, hit, hst⟩ := ih (fun j hj => hr j (by omega)) hticks
    have hpins : t.pins = s.pinsAt k := by simpa using pinsAt_runSteps hrun 0
    have hstep : step t = .next t.nextCycle.clearDone :=
      step_of_hold hit.unreachable_eq_none (by rw [hpins]; exact hr k (by omega))
        (.inl ⟨hst.busy.trans hb, by rw [hpins, hlast]⟩)
    have hold := sameButDone_hold t
    exact ⟨_, runSteps_add_one hrun hstep, hold.inv hit rfl, hst.trans hold⟩

/-! ### The statements about acceptance and hold -/

/-- Settles O29: one hold edge changes DONE alone, which no line shows, and a run of them keeps what one keeps. -/
theorem holdKeepsRegistersAndLines : Obligations.HoldKeepsRegistersAndLines := by
  constructor
  · intro s hi hr hquiet
    have hold := sameButDone_hold s
    exact ⟨_, step_of_hold hi.unreachable_eq_none hr hquiet, rfl, hold.lines_eq hi (hold.inv hi rfl)⟩
  · intro s k hi hb hr ht
    obtain ⟨t, hrun, hit, h⟩ := hi.hold_run hb hr ht
    exact ⟨t, hrun, h.busy.trans hb, h.pos, h.cmdR, h.err, h.errCode, h.lines_eq hi hit⟩

/-- Settles O25: the word is taken by its class, and what follows a legal one is a run of hold edges with POS = 0. -/
theorem acceptanceCapturesTheWord : Obligations.AcceptanceCapturesTheWord := by
  intro s hi hr hb hv
  have hstep := hi.step_eq_takeWord hr hb hv
  have hb' : s.nextCycle.busy = false := by simpa using hb
  refine ⟨by simp [State.cmdReadyOut, hb, hr], fun p b hc => ?_, fun hc => ?_, fun p hc => ?_⟩
  · refine ⟨s.nextCycle.startCommand s.pins.cmd, by rw [hstep, State.takeWord_of_enc hc], rfl, fun k hnr hnt => ?_⟩
    obtain ⟨u, hrun, hiu, h⟩ := (inv_startCommand hc s.nextCycle).hold_run rfl hnr hnt
    exact ⟨u, hrun, h.busy, hiu.lines_of_inactive (State.active_eq_false (.inr h.pos))⟩
  · rw [hstep, State.takeWord_of_illegal hc, recordError_eq_of_not_busy hb']
    rfl
  · rw [hstep, State.takeWord_of_empty hc, recordError_eq_of_not_busy hb']
    rfl

end Sys2Proof.Machine

/-! ## The UART frame

The levels of TX as one list, and its samples by position (rules R141 to R144). -/

namespace Sys2Proof.Machine

/-- Below the width, a padded or truncated sequence has the element or the padding 0. -/
theorem getElem?_fit {n i : Nat} (b : BitSequence) (hi : i < n) : (fit n b)[i]? = some (b.getD i false) := by
  rw [List.getElem?_eq_getElem (by simpa using hi), getElem_fit]

/-- The samples of TX: idle, start, the 8 data samples, stop, idle (rule R142). -/
def uartTxLevels (b : BitSequence) : List Level :=
  true :: false :: ((fit 8 b).reverse ++ [true, true])

/-- The UART trace is the one Signal TX (rules R101, R140). -/
theorem encodeTrace_uart {b : BitSequence} (hb : b ≠ []) :
    encodeTrace .uart b = .ok ⟨.uart, [⟨.tx, uartTxLevels b⟩]⟩ := by
  simp [encodeTrace, hb, encodeUart, uartFrame, onWire, uartTxLevels, Config.uartIdle, Config.uartStart,
    Config.uartStop, Config.uartOrder, Config.uartWidth]

@[simp] theorem length_uartTxLevels (b : BitSequence) : (uartTxLevels b).length = 12 := by
  simp [uartTxLevels]

/-- The data samples are the 8 elements in reverse order (rule R141). -/
theorem getElem?_uartTxLevels_data (b : BitSequence) {j : Nat} (hj : j < 8) :
    (uartTxLevels b)[2 + j]? = (fit 8 b)[7 - j]? := by
  calc (uartTxLevels b)[2 + j]?
      = ((fit 8 b).reverse ++ [true, true])[j]? := by rw [Nat.add_comm]; rfl
    _ = (fit 8 b).reverse[j]? := List.getElem?_append_left (by simpa using hj)
    _ = (fit 8 b)[7 - j]? := by rw [List.getElem?_reverse (by simpa using hj), length_fit]

/-- The two samples after the data are the stop bit and the trailing idle level (rule R144). -/
theorem getElem?_uartTxLevels_end (b : BitSequence) {j : Nat} (hj : j < 2) : (uartTxLevels b)[10 + j]? = some true := by
  have hlen : (fit 8 b).reverse.length = 8 := by simp
  calc (uartTxLevels b)[10 + j]?
      = ((fit 8 b).reverse ++ [true, true])[8 + j]? := by rw [Nat.add_comm, Nat.add_comm 8]; rfl
    _ = (List.replicate 2 true)[j]? := by
      rw [List.getElem?_append_right (by omega), hlen, Nat.add_sub_cancel_left]; rfl
    _ = some true := List.getElem?_replicate_of_lt hj

/-- Settles O10: the framing levels stand outside the reversed data, whatever the payload. -/
theorem uartFramingAndDataOrder : Obligations.UartFramingAndDataOrder := by
  intro b hb
  refine ⟨uartTxLevels b, encodeTrace_uart hb, length_uartTxLevels b, rfl, rfl,
    getElem?_uartTxLevels_end b (j := 0) (by omega), getElem?_uartTxLevels_end b (j := 1) (by omega), fun j hj => ?_⟩
  have hdata := getElem?_uartTxLevels_data b hj
  exact ⟨hdata, hdata.trans (getElem?_fit b (by omega))⟩

end Sys2Proof.Machine

/-! ## The SPI transfer

The three Signals of the trace, and the samples of the two that carry no payload (rules R160, R163, R164). -/

namespace Sys2Proof.Machine

/-- The SPI trace: SS and SCLK are the same for every payload, which enters MOSI alone (rules R101, R160). -/
theorem encodeTrace_spi {b : BitSequence} (hb : b ≠ []) :
    encodeTrace .spi b = .ok ⟨.spi, [⟨.ss, spiSs⟩, ⟨.sclk, spiSclk⟩, ⟨.mosi, spiMosi (spiData b)⟩]⟩ := by
  simp [encodeTrace, hb, encodeSpi]

/-- SS is high in slots 0 and 9 and low in the data slots between them (rule R163): one fixed list of 20 levels. -/
theorem getElem?_spiSs : ∀ n < 20, spiSs[n]? = some (decide (n < 2 ∨ 18 ≤ n)) := by decide

/-- SCLK is high in the second half of each data slot alone (rule R164; slots 0 and 9 by decision D20): one fixed list
of 20 levels. -/
theorem getElem?_spiSclk : ∀ n < 20, spiSclk[n]? = some (decide (2 ≤ n ∧ n < 18 ∧ n % 2 = 1)) := by decide

/-- Settles O11: no payload reaches SS or SCLK, so their 20 samples are those of two fixed lists. -/
theorem spiSelectAndClock : Obligations.SpiSelectAndClock :=
  fun b hb => ⟨spiSs, spiSclk, spiMosi (spiData b), encodeTrace_spi hb, getElem?_spiSs, getElem?_spiSclk⟩

end Sys2Proof.Machine

/-! ## The I²C write

SCL and SDA as four framing samples, the bit slots and four framing samples, and their samples by position (rules R183
to R186). -/

namespace Sys2Proof.Machine

/-- The I²C trace: SCL and SDA, both drawn from the sequence `q` (rules R101, R180). -/
theorem encodeTrace_i2c {b : BitSequence} (hb : b ≠ []) :
    encodeTrace .i2c b = .ok ⟨.i2c, [⟨.scl, i2cScl (i2cSequence b)⟩, ⟨.sda, i2cSda (i2cSequence b)⟩]⟩ := by
  simp [encodeTrace, hb, encodeI2c]

/-! ### Bit slots of two samples -/

section Slots
variable {slot : Level → List Level} {pre post : List Level} {q : BitSequence}

/-- With two samples to a slot, sample `2 * i + h` is half `h` of the slot of entry `i` (rule R108). -/
theorem getElem?_flatMap_slot (hslot : ∀ a, (slot a).length = 2) (i : Nat) {h : Nat} (hh : h < 2) :
    (q.flatMap slot)[2 * i + h]? = q[i]?.bind (fun a => (slot a)[h]?) := by
  induction q generalizing i with
  | nil => rfl
  | cons a q ih =>
    rw [List.flatMap_cons]
    cases i with
    | zero => simp [List.getElem?_append_left, hslot, hh]
    | succ i =>
      have hnext : 2 * (i + 1) + h - (slot a).length = 2 * i + h := by rw [hslot]; omega
      rw [List.getElem?_append_right (by rw [hslot]; omega), hnext, ih, List.getElem?_cons_succ]

theorem length_flatMap_slot (hslot : ∀ a, (slot a).length = 2) : (q.flatMap slot).length = 2 * q.length := by
  simp [List.length_flatMap, hslot, Nat.mul_comm]

/-- The slots start at sample 4, after the idle and the Start slot. -/
theorem getElem?_framed_slot (hslot : ∀ a, (slot a).length = 2) (hpre : pre.length = 4) {i h : Nat}
    (hi : i < q.length) (hh : h < 2) :
    (pre ++ q.flatMap slot ++ post)[4 + h + 2 * i]? = q[i]?.bind (fun a => (slot a)[h]?) := by
  have hlen := length_flatMap_slot (q := q) hslot
  have hoff : 4 + h + 2 * i - pre.length = 2 * i + h := by omega
  rw [List.getElem?_append_left (by rw [List.length_append]; omega), List.getElem?_append_right (by omega), hoff,
    getElem?_flatMap_slot hslot i hh]

/-- The Stop and the idle slot follow the last bit slot. -/
theorem getElem?_framed_post (hslot : ∀ a, (slot a).length = 2) (hpre : pre.length = 4) (j : Nat) :
    (pre ++ q.flatMap slot ++ post)[4 + 2 * q.length + j]? = post[j]? := by
  have hlen : (pre ++ q.flatMap slot).length = 4 + 2 * q.length := by
    rw [List.length_append, length_flatMap_slot hslot, hpre]
  rw [List.getElem?_append_right (by omega), hlen, Nat.add_sub_cancel_left]

end Slots

/-! ### SCL and SDA -/

section Lines
variable {q : BitSequence}

/-- SCL is high in the two slots on either side of the bit slots (rule R185). -/
theorem i2cScl_eq_framed (q : BitSequence) :
    i2cScl q = List.replicate 4 true ++ q.flatMap (fun _ => [false, true]) ++ List.replicate 4 true := by
  simp [i2cScl, bothHalves, Config.i2cIdle]

/-- The Start falls before the bit slots and the Stop rises after them (rule R186). -/
theorem i2cSda_eq_framed (q : BitSequence) :
    i2cSda q = [true, true, true, false] ++ q.flatMap bothHalves ++ [q.getLastD false, true, true, true] := by
  simp [i2cSda, bothHalves, Config.i2cIdle]

/-- SCL before the first bit slot (rule R185). -/
theorem getElem?_i2cScl_pre {n : Nat} (hn : n < 4) : (i2cScl q)[n]? = some true := by
  rw [i2cScl_eq_framed, List.append_assoc, List.getElem?_append_left (by simpa using hn),
    List.getElem?_replicate_of_lt hn]

/-- SCL after the last bit slot (rule R185). -/
theorem getElem?_i2cScl_post {j : Nat} (hj : j < 4) : (i2cScl q)[4 + 2 * q.length + j]? = some true := by
  rw [i2cScl_eq_framed, getElem?_framed_post (fun _ => rfl) rfl, List.getElem?_replicate_of_lt hj]

/-- Half `h` of a bit slot of SCL (rule R185). -/
theorem getElem?_i2cScl_slot {i h : Nat} (hi : i < q.length) (hh : h < 2) :
    (i2cScl q)[4 + h + 2 * i]? = [false, true][h]? := by
  rw [i2cScl_eq_framed, getElem?_framed_slot (fun _ => rfl) rfl hi hh, List.getElem?_eq_getElem hi, Option.bind_some]

/-- SDA after the last bit slot (rule R186). -/
theorem getElem?_i2cSda_post (j : Nat) :
    (i2cSda q)[4 + 2 * q.length + j]? = [q.getLastD false, true, true, true][j]? := by
  rw [i2cSda_eq_framed, getElem?_framed_post length_bothHalves rfl]

/-- Both halves of a bit slot of SDA hold the entry of `q` (rule R186). -/
theorem getElem?_i2cSda_slot {i h : Nat} (hi : i < q.length) (hh : h < 2) :
    (i2cSda q)[4 + h + 2 * i]? = q[i]? := by
  have hhold (a : Level) : (bothHalves a)[h]? = some a := List.getElem?_replicate_of_lt hh
  rw [i2cSda_eq_framed, getElem?_framed_slot length_bothHalves rfl hi hh]
  simp only [hhold, Option.bind_fun_some]

/-- The Stop slot first holds the last entry of `q`, so that SDA does not move before SCL is high (rule R186). -/
theorem getElem?_i2cSda_stop (hq : q ≠ []) : (i2cSda q)[4 + 2 * q.length]? = q[q.length - 1]? := by
  calc (i2cSda q)[4 + 2 * q.length]?
      = some (q.getLastD false) := getElem?_i2cSda_post 0
    _ = q.getLast? := by rw [List.getLastD_eq_getLast?, List.getLast?_eq_some_getLast hq, Option.getD_some]
    _ = q[q.length - 1]? := List.getLast?_eq_getElem?

end Lines

/-- Settles O13: samples 0 to 3 and 40 to 43 frame the 18 bit slots, whatever the payload. -/
theorem i2cClockAndDataLevels : Obligations.I2cClockAndDataLevels := by
  intro b hb q
  have hq : q.length = 18 := length_i2cSequence b
  have hne : q ≠ [] := List.ne_nil_of_length_pos (by omega)
  have hsclPost {j : Nat} (hj : j < 4) : (i2cScl q)[40 + j]? = some true := by
    simpa only [hq] using getElem?_i2cScl_post (q := q) hj
  have hsdaPost (j : Nat) : (i2cSda q)[40 + j]? = [q.getLastD false, true, true, true][j]? := by
    simpa only [hq] using getElem?_i2cSda_post (q := q) j
  refine ⟨i2cScl q, i2cSda q, encodeTrace_i2c hb, ?sclFrame, ?sclSlots, ?sdaIdle, rfl, rfl, ?sdaSlots, ?sdaStop,
    hsdaPost 1⟩
  case sclFrame =>
    intro n hn
    obtain hlt | ⟨j, hj, rfl⟩ : n < 4 ∨ ∃ j < 4, n = 40 + j := by
      revert n; decide
    · exact getElem?_i2cScl_pre hlt
    · exact hsclPost hj
  case sclSlots =>
    intro i hi
    have hslot {h : Nat} (hh : h < 2) := getElem?_i2cScl_slot (hq ▸ hi) hh
    exact ⟨hslot Nat.zero_lt_two, hslot Nat.one_lt_two⟩
  case sdaIdle =>
    simp only [List.forall_mem_cons]
    exact ⟨rfl, rfl, hsdaPost 2, hsdaPost 3, nofun⟩
  case sdaSlots =>
    intro i hi
    have hslot {h : Nat} (hh : h < 2) := getElem?_i2cSda_slot (hq ▸ hi) hh
    exact ⟨by simp [hq, hi], hslot Nat.zero_lt_two, hslot Nat.one_lt_two⟩
  case sdaStop => simpa only [hq] using getElem?_i2cSda_stop hne

end Sys2Proof.Machine

/-! ## The loader

The word of a loaded BitSequence: its fields, the elements it carries, and its trace (rule R217). -/

namespace Sys2Proof.Machine

/-! ### The number of a sequence, bit by bit -/

/-- The first element of a sequence is the most significant bit of its number. -/
theorem seqValue_cons (x : Level) (s : BitSequence) :
    seqValue (x :: s) = 2 ^ s.length * x.toNat + seqValue s := by
  have hx : seqValue [x] = x.toNat := by simp [seqValue]
  rw [← List.singleton_append, seqValue_append, hx, Nat.mul_comm]

/-- Element `i` of a sequence is bit `length - 1 - i` of its number. -/
theorem testBit_seqValue (s : BitSequence) {i : Nat} (hi : i < s.length) :
    (seqValue s).testBit (s.length - 1 - i) = s.getD i false := by
  induction s generalizing i with
  | nil => simp at hi
  | cons x s ih =>
    rw [seqValue_cons, Nat.testBit_two_pow_mul_add _ (seqValue_lt s)]
    cases i with
    | zero => cases x <;> simp
    | succ i =>
      have hi' : i < s.length := by simpa using hi
      have hbit : (x :: s).length - 1 - (i + 1) = s.length - 1 - i := by rw [List.length_cons]; omega
      rw [hbit, if_pos (by omega), ih hi', List.getD_cons_succ]

/-! ### Padding and the number of a sequence -/

theorem fit_nil (n : Nat) : fit n [] = List.replicate n false := by simp [fit]

theorem fit_succ_cons (n : Nat) (x : Level) (b : BitSequence) : fit (n + 1) (x :: b) = x :: fit n b := by
  have hle : n - b.length ≤ n + 1 := by omega
  simp [fit, List.take_append, List.take_replicate, hle]

theorem seqValue_replicate_false (n : Nat) : seqValue (List.replicate n false) = 0 := by
  induction n with
  | zero => rfl
  | succ n ih => simp [List.replicate_succ, seqValue_cons, ih]

/-- The number of a fitted sequence is the weighted sum of the elements that fit; the padding adds nothing. -/
theorem seqValue_fit (n : Nat) (b : BitSequence) :
    seqValue (fit n b) =
      ((List.range (min b.length n)).map (fun i => (b.getD i false).toNat * 2 ^ (n - 1 - i))).sum := by
  induction b generalizing n with
  | nil => simp [fit_nil, seqValue_replicate_false]
  | cons x b ih =>
    cases n with
    | zero => rfl
    | succ n =>
      have hweight (i : Nat) : n - 1 - i = n - (i + 1) := by omega
      rw [fit_succ_cons, seqValue_cons, length_fit, ih, List.length_cons, Nat.succ_min_succ,
        List.range_succ_eq_map, List.map_cons, List.sum_cons, List.map_map, Nat.mul_comm]
      simp only [Function.comp_def, Nat.succ_eq_add_one, hweight, List.getD_cons_succ, List.getD_cons_zero,
        Nat.add_sub_cancel, Nat.sub_zero]

/-! ### The loaded fields -/

@[simp] theorem toNat_loadLen (b : BitSequence) : (loadLen b).toNat = min b.length 16 := by
  rw [loadLen, BitVec.toNat_ofNat, Nat.mod_eq_of_lt (by omega)]

@[simp] theorem toNat_loadPayload (b : BitSequence) : (loadPayload b).toNat = seqValue (fit 16 b) := by
  have hlt : seqValue (fit 16 b) < 2 ^ 16 := by simpa using seqValue_lt (fit 16 b)
  rw [loadPayload, BitVec.toNat_ofNat, Nat.mod_eq_of_lt hlt]

@[simp] theorem encode_loadCommand (p : Protocol) (b : BitSequence) :
    encode (loadCommand p b) = commandWord p (loadLen b) (loadPayload b) := by
  simp [encode, loadCommand]

/-- A BitSequence of at least one element is loaded with LEN not 0. -/
theorem loadLen_ne_zero {b : BitSequence} (hb : b ≠ []) : loadLen b ≠ 0#5 := by
  have hpos := List.length_pos_iff.2 hb
  intro h
  have := toNat_loadLen b
  simp only [h, BitVec.toNat_ofNat] at this
  omega

/-! ### What the loaded word carries -/

/-- The payload elements of a word are bits of its PAYLOAD field. -/
theorem payloadElement_eq_payloadField (w : Word) {i : Nat} :
    payloadElement w i = (payloadField w).getLsbD (15 - i) := by
  have hlt : 15 - i < 16 := by omega
  simp [payloadElement, payloadField, hlt]

theorem getLsbD_loadPayload (b : BitSequence) {i : Nat} (hi : i < 16) :
    (loadPayload b).getLsbD (15 - i) = b.getD i false := by
  have hfit : i < (fit 16 b).length := by simpa using hi
  have hbit := testBit_seqValue (fit 16 b) hfit
  rwa [length_fit, ← toNat_loadPayload, BitVec.testBit_toNat, List.getD_eq_getElem _ _ hfit, getElem_fit] at hbit

/-- The loaded word carries the first 16 elements (rules R77, R217). -/
theorem bits_encode_loadCommand (p : Protocol) (b : BitSequence) :
    bits (encode (loadCommand p b)) = b.take 16 := by
  have hcount : elementCount (encode (loadCommand p b)) = (b.take 16).length := by
    simp [elementCount, Nat.min_comm]
  apply List.ext_getElem (by rw [length_bits, hcount])
  intro i hi hi'
  obtain ⟨h16, hib⟩ : i < 16 ∧ i < b.length := by simpa using hi'
  simp only [bits, List.getElem_map, List.getElem_range, payloadElement_eq_payloadField, encode_loadCommand,
    payloadField_commandWord, getLsbD_loadPayload b h16, List.getElem_take, List.getD_eq_getElem b false hib]

theorem classify_encode_loadCommand (p : Protocol) {b : BitSequence} (hb : b ≠ []) :
    classify (encode (loadCommand p b)) = .enc p (bits (encode (loadCommand p b))) := by
  rw [classify_eq_enc_iff]
  simp [loadLen_ne_zero hb]

/-- Truncation to 16 elements leaves the trace, since no encoder reads past element 14 (rule R112). -/
theorem encodeTrace_take (p : Protocol) {b : BitSequence} (hb : b ≠ []) :
    encodeTrace p (b.take 16) = encodeTrace p b := by
  refine encodeTrace_congr p (by simpa using hb) hb fun i hi => ?_
  have h16 : i < 16 := by omega
  simp [List.getD_eq_getElem?_getD, h16]

/-- Settles O53: the loaded word carries `take(16, b)`, which has the trace of `b`. -/
theorem loaderCarriesThePayload : Obligations.LoaderCarriesThePayload := by
  intro p b hb
  refine ⟨toNat_loadLen b, ?_, bits_encode_loadCommand p b, ?_⟩
  · rw [toNat_loadPayload, seqValue_fit]
  · rw [trace_of_classify (classify_encode_loadCommand p hb), bits_encode_loadCommand, encodeTrace_take p hb]

end Sys2Proof.Machine

/-! ## The normalizer

The hex digits and their values, what `hexBits` makes of them, and `normalize` case by case (rules R212 to R216). -/

namespace Sys2Proof.Machine

/-! ### Hex digits -/

/-- The characters of `0-9A-Fa-f` with their values (rule R214). -/
def hexDigitValues : List (Char × Nat) :=
  [('0', 0), ('1', 1), ('2', 2), ('3', 3), ('4', 4), ('5', 5), ('6', 6), ('7', 7), ('8', 8), ('9', 9),
   ('A', 10), ('B', 11), ('C', 12), ('D', 13), ('E', 14), ('F', 15),
   ('a', 10), ('b', 11), ('c', 12), ('d', 13), ('e', 14), ('f', 15)]

/-- No character past `f` is a hex digit. -/
theorem toNat_lt_of_hexValue {c : Char} {v : Nat} (h : hexValue c = some v) : c.toNat < 103 := by
  by_contra hge
  have hnone : hexValue c = none := by
    rw [hexValue, if_neg (by omega), if_neg (by omega), if_neg (by omega)]
  simp [hnone] at h

/-- `hexValue` is the table of the hex digits. -/
theorem hexValue_eq_some_iff {c : Char} {v : Nat} : hexValue c = some v ↔ (c, v) ∈ hexDigitValues := by
  constructor
  · have htable : ∀ n < 103, ∀ u ∈ hexValue (Char.ofNat n), (Char.ofNat n, u) ∈ hexDigitValues := by decide
    intro h
    have hc := htable c.toNat (toNat_lt_of_hexValue h)
    rw [Char.ofNat_toNat] at hc
    exact hc v h
  · have htable : ∀ e ∈ hexDigitValues, hexValue e.1 = some e.2 := by decide
    exact htable (c, v)

/-- A character without a value is none of the digits. -/
theorem hexValue_eq_none_iff {c : Char} : hexValue c = none ↔ c ∉ hexDigitValues.map Prod.fst := by
  simp [Option.eq_none_iff_forall_ne_some, hexValue_eq_some_iff]

/-! ### Hex strings -/

theorem hexBits_cons_eq_some_iff {c : Char} {t : List Char} {b : BitSequence} :
    hexBits (c :: t) = some b ↔
      ∃ v rest, hexValue c = some v ∧ hexBits t = some rest ∧ nibbleBits v ++ rest = b := by
  cases hv : hexValue c <;> cases ht : hexBits t <;> simp [hexBits, hv, ht]

/-- A string is read as hex unless one of its characters is no hex digit. -/
theorem hexBits_eq_none_iff {t : List Char} : hexBits t = none ↔ ∃ c ∈ t, hexValue c = none := by
  induction t with
  | nil => simp [hexBits]
  | cons c t ih =>
    rw [List.exists_mem_cons_iff, ← ih]
    cases hv : hexValue c <;> cases ht : hexBits t <;> simp [hexBits, hv, ht]

@[simp] theorem length_nibbleBits (v : Nat) : (nibbleBits v).length = 4 := rfl

theorem getElem?_nibbleBits (v : Nat) {k : Nat} (hk : k < 4) : (nibbleBits v)[k]? = some (v.testBit (3 - k)) := by
  interval_cases k <;> rfl

theorem length_hexBits {t : List Char} {b : BitSequence} (h : hexBits t = some b) : b.length = 4 * t.length := by
  induction t generalizing b with
  | nil =>
    obtain rfl : [] = b := by simpa [hexBits] using h
    rfl
  | cons c t ih =>
    obtain ⟨v, rest, -, hrest, rfl⟩ := hexBits_cons_eq_some_iff.1 h
    rw [List.length_append, length_nibbleBits, ih hrest, List.length_cons]
    omega

/-- Character `j` gives elements `4j` to `4j + 3`, most significant first (rule R214). -/
theorem getElem?_hexBits {t : List Char} {b : BitSequence} (h : hexBits t = some b) {j : Nat} {c : Char} {v : Nat}
    (hc : t[j]? = some c) (hv : hexValue c = some v) {k : Nat} (hk : k < 4) :
    b[4 * j + k]? = some (v.testBit (3 - k)) := by
  induction t generalizing b j with
  | nil => simp at hc
  | cons d t ih =>
    obtain ⟨u, rest, hu, hrest, rfl⟩ := hexBits_cons_eq_some_iff.1 h
    cases j with
    | zero =>
      obtain rfl : d = c := by simpa using hc
      obtain rfl : u = v := by simpa [hu] using hv
      rw [Nat.mul_zero, Nat.zero_add, List.getElem?_append_left (by simpa using hk), getElem?_nibbleBits u hk]
    | succ j =>
      have hskip : 4 * (j + 1) + k - (nibbleBits u).length = 4 * j + k := by rw [length_nibbleBits]; omega
      rw [List.getElem?_append_right (by rw [length_nibbleBits]; omega), hskip]
      exact ih hrest (by simpa using hc)

/-! ### `normalize`, case by case -/

variable {ts raw : List Char}

@[simp] theorem isBinaryDigit_iff (c : Char) : isBinaryDigit c = true ↔ c = '0' ∨ c = '1' := by
  simp [isBinaryDigit]

theorem normalize_of_empty (h : trim ts raw = []) : normalize ts raw = .error .emptyInput := by
  simp [normalize, h]

theorem normalize_of_binary (hne : trim ts raw ≠ []) (h : ∀ c ∈ trim ts raw, c = '0' ∨ c = '1') :
    normalize ts raw = .ok (binaryBits (trim ts raw)) := by
  have hbin : (trim ts raw).all isBinaryDigit = true := by simpa using h
  simp [normalize, hne, hbin]

/-- A string with a character other than 0 and 1 is not empty and not binary, so `normalize` reads it as hex. -/
theorem normalize_of_not_binary (h : ∃ c ∈ trim ts raw, c ≠ '0' ∧ c ≠ '1') :
    normalize ts raw = (hexBits (trim ts raw)).elim (.error .neitherFormat) .ok := by
  obtain ⟨c, hc, hc0, hc1⟩ := h
  have hne : (trim ts raw).isEmpty = false := by simpa using List.ne_nil_of_mem hc
  have hbin : (trim ts raw).all isBinaryDigit = false := by
    rw [List.all_eq_false]
    exact ⟨c, hc, by simp [hc0, hc1]⟩
  simp only [normalize, hne, hbin, Bool.false_eq_true, if_false]
  cases hexBits (trim ts raw) <;> rfl

/-! ### The statements about `normalize` -/

/-- Settles O55: binary input is read character for character. -/
theorem normalizeReadsBinary : Obligations.NormalizeReadsBinary := by
  intro ts raw hne h
  refine ⟨_, normalize_of_binary hne h, by simp [binaryBits], fun i c hc => ?_⟩
  simp [binaryBits, hc, beq_eq_decide]

/-- Settles O56: every character has a value, so `hexBits` succeeds. -/
theorem normalizeReadsHex : Obligations.NormalizeReadsHex := by
  intro ts raw hdigits hnb
  have hsome : hexBits (trim ts raw) ≠ none := by
    rw [Ne, hexBits_eq_none_iff]
    rintro ⟨c, hc, hnone⟩
    obtain ⟨v, hv⟩ := hdigits c hc
    simp [hexValue_eq_some_iff.2 hv] at hnone
  obtain ⟨b, hb⟩ := Option.ne_none_iff_exists'.1 hsome
  exact ⟨b, by rw [normalize_of_not_binary hnb, hb]; rfl, length_hexBits hb,
    fun j c v hc hv k hk => getElem?_hexBits hb hc (hexValue_eq_some_iff.2 hv) hk⟩

/-- Settles O57: a character that is no hex digit is no binary digit either, and `hexBits` fails on it. -/
theorem normalizeRefusesTheRest : Obligations.NormalizeRefusesTheRest := by
  intro ts raw
  refine ⟨normalize_of_empty, fun ⟨c, hc, hcd⟩ => ?_⟩
  have hnb : c ≠ '0' ∧ c ≠ '1' := ⟨fun h => hcd (by simp [h]), fun h => hcd (by simp [h])⟩
  have hnone : hexBits (trim ts raw) = none := hexBits_eq_none_iff.2 ⟨c, hc, hexValue_eq_none_iff.2 hcd⟩
  rw [normalize_of_not_binary ⟨c, hc, hnb⟩, hnone]
  rfl

end Sys2Proof.Machine

/-! ## ILLEGAL and EMPTY

The error classes of a word by its raw bit fields, and what recording an error leaves (rules R233 to R237). -/

namespace Sys2Proof.Machine

variable {s : State}

/-! ### The error classes of a word -/

/-- RES_HI as a number (rule R70). -/
theorem toNat_resHiField (w : Word) : (resHiField w).toNat = w.toNat / 2 ^ 26 := by
  rw [resHiField, BitVec.extractLsb'_toNat, Nat.shiftRight_eq_div_pow, Nat.mod_eq_of_lt (by omega)]

/-- RES_LO as a number (rule R70). -/
theorem toNat_resLoField (w : Word) : (resLoField w).toNat = w.toNat / 2 ^ 21 % 2 ^ 3 := by
  rw [resLoField, BitVec.extractLsb'_toNat, Nat.shiftRight_eq_div_pow]

/-- PROTO as a number (rule R70). -/
theorem toNat_protoField (w : Word) : (protoField w).toNat = w.toNat / 2 ^ 24 % 2 ^ 2 := by
  rw [protoField, BitVec.extractLsb'_toNat, Nat.shiftRight_eq_div_pow]

/-- The one PROTO value that selects no protocol (rules R72, R73). -/
theorem proto_eq_none_iff (w : Word) : proto w = none ↔ protoField w = 0b11#2 := by
  unfold proto
  generalize protoField w = c
  revert c
  decide

/-- The three ways a word is ILLEGAL, by its fields (rules R81, R233). -/
theorem classify_eq_illegal_iff_fields (w : Word) :
    classify w = .illegal ↔ resHiField w ≠ 0#6 ∨ resLoField w ≠ 0#3 ∨ proto w = none := by
  by_cases hres : resHiField w ≠ 0#6 ∨ resLoField w ≠ 0#3
  · simp only [classify, if_pos hres, true_iff]
    exact hres.imp_right .inl
  · obtain ⟨hh, hl⟩ : resHiField w = 0#6 ∧ resLoField w = 0#3 := by simpa using hres
    cases hp : proto w with
    | none => simp [classify, hh, hl, hp]
    | some p => by_cases h0 : lenField w = 0#5 <;> simp [classify, hh, hl, hp, h0]

/-- The same by the raw bits of the word (rule R233). -/
theorem classify_eq_illegal_iff (w : Word) :
    classify w = .illegal ↔
      w.toNat / 2 ^ 26 ≠ 0 ∨ w.toNat / 2 ^ 21 % 2 ^ 3 ≠ 0 ∨ w.toNat / 2 ^ 24 % 2 ^ 2 = 3 := by
  rw [classify_eq_illegal_iff_fields, proto_eq_none_iff, Ne, Ne, ← BitVec.toNat_inj, ← BitVec.toNat_inj,
    ← BitVec.toNat_inj, toNat_resHiField, toNat_resLoField, toNat_protoField]
  rfl

/-- A word that is not ILLEGAL and has LEN = 0 is EMPTY (rules R81, R234). -/
theorem exists_classify_eq_empty {w : Word} (hw : classify w ≠ .illegal) (hlen : lenField w = 0#5) :
    ∃ p, classify w = .empty p := by
  cases hc : classify w with
  | illegal => exact absurd hc hw
  | empty p => exact ⟨p, rfl⟩
  | enc p b =>
    obtain ⟨-, -, -, hne, -⟩ := (classify_eq_enc_iff w p b).1 hc
    exact absurd hlen hne

/-! ### A recorded error -/

/-- An idle block that records an error meets the invariant, whatever its status registers were. -/
theorem inv_recordError {code : BitVec 2} (hb : s.busy = false) (hp : s.pos = 0#6) (hc : code ≠ codeReserved) :
    (s.recordError code).Inv where
  heldWordDecodes := by simp [hb]
  posWithinTrace := by simp [hb]
  posZeroWhenNotBusy := fun _ => hp
  errCodeProduced := hc
  errIffCode := by simp [errOfCode, codeNone]
  doneNotBusy := nofun
  heldWordNonEmpty := by simp [hb]
  noErrorWhilePlaying := by simp [hb]

/-- A recorded error plays nothing: every line is idle after it (rules R125, R235). -/
theorem lines_recordError {code : BitVec 2} (hb : s.busy = false) (hp : s.pos = 0#6) (hc : code ≠ codeReserved) :
    (s.recordError code).lines = some ⟨true, true, false, false, true, true⟩ :=
  (inv_recordError hb hp hc).lines_of_inactive (State.active_eq_false (.inl hb))

/-! ### The statement about errors -/

/-- Settles O26: the raw fields decide the class of the word, ILLEGAL first, and the step records that class. -/
theorem errorIsRecordedAndPlaysNothing : Obligations.ErrorIsRecordedAndPlaysNothing := by
  intro s hi hr hb hv w illegal
  have hstep := hi.step_eq_takeWord hr hb hv
  have hclass : classify s.pins.cmd = .illegal ↔ illegal := classify_eq_illegal_iff s.pins.cmd
  have hillegal (h : illegal) : step s = .next (s.nextCycle.recordError codeIllegal) := by
    rw [hstep, State.takeWord_of_illegal (hclass.2 h)]
  have hempty (h : ¬ illegal) (hlen : w / 2 ^ 16 % 2 ^ 5 = 0) :
      step s = .next (s.nextCycle.recordError codeEmpty) := by
    have hlen' : lenField s.pins.cmd = 0#5 := BitVec.eq_of_toNat_eq ((toNat_lenField _).trans hlen)
    obtain ⟨p, hp⟩ := exists_classify_eq_empty (fun hc => h (hclass.1 hc)) hlen'
    rw [hstep, State.takeWord_of_empty hp]
  have hidle {code : BitVec 2} (hc : code ≠ codeReserved) :
      (s.nextCycle.recordError code).lines = some ⟨true, true, false, false, true, true⟩ :=
    lines_recordError (by simpa using hb) (by simpa using hi.posZeroWhenNotBusy hb) hc
  refine ⟨hillegal, hempty, fun h => ⟨by simp [State.cmdReadyOut, hb, hr], fun t ht => ?_⟩⟩
  by_cases hill : illegal
  · obtain rfl := Host.Outcome.next.inj ((hillegal hill).symm.trans ht)
    exact hidle (by decide)
  · obtain rfl := Host.Outcome.next.inj ((hempty hill (h.resolve_left hill)).symm.trans ht)
    exact hidle (by decide)

end Sys2Proof.Machine

/-! ## Decode and encode

`decode` and `encode` as two readings of one relation, a row of the opcode table by mask and match value, and the padded
elements by the raw bits of the word (rules R70 to R81, R86). -/

namespace Sys2Proof.Machine

/-! ### Decode and encode are inverse -/

/-- The words that decode, field by field (rules R70, R81). -/
theorem decode_eq_ok_iff (w : Word) (i : Instr) :
    decode w = .ok i ↔ resHiField w = 0#6 ∧ resLoField w = 0#3 ∧ proto w = some i.protocol ∧
      i = Instr.ofProtocol i.protocol (lenField w) (payloadField w) := by
  obtain ⟨hh, hd⟩ | ⟨hh, hl, hd⟩ | ⟨hh, hl, hp, hd⟩ | ⟨p, hh, hl, hp, hd⟩ := decode_cases w
  · simp [hd, hh]
  · simp [hd, hl]
  · simp [hd, hp]
  · simp only [hd, hh, hl, hp, Except.ok.injEq, Option.some.injEq, true_and]
    constructor
    · rintro rfl
      simp
    · rintro ⟨rfl, hi⟩
      exact hi.symm

theorem decode_encode (i : Instr) : decode (encode i) = .ok i := by
  simp [decode_eq_ok_iff, encode]

theorem encode_of_decode {w : Word} {i : Instr} (h : decode w = .ok i) : encode i = w := by
  obtain ⟨hh, hl, hp, hi⟩ := (decode_eq_ok_iff w i).1 h
  rw [hi, encode, protocol_ofProtocol, len_ofProtocol, payload_ofProtocol]
  exact commandWord_fields hh hl hp

/-- Settles O2: a command's word has the command's fields, and a word that decodes is put together from its own. -/
theorem decodeInvertsEncode : Obligations.DecodeInvertsEncode :=
  ⟨decode_encode, fun _ _ => encode_of_decode⟩

/-- Settles O1: six commands' words, and one word for each check that fails. -/
theorem specWordsDecode : Obligations.SpecWordsDecode :=
  ⟨rfl, rfl, rfl, rfl, rfl, rfl, rfl⟩

/-! ### The rows of the opcode table -/

/-- PROTO selects the protocol whose code it is (rules R72, R73). -/
theorem proto_eq_some_iff (w : Word) (p : Protocol) : proto w = some p ↔ protoField w = protoCode p := by
  unfold proto
  generalize protoField w = c
  cases p <;> revert c <;> decide

/-- A word matches the row of a protocol exactly when its reserved fields are 0 and PROTO selects the protocol (rule
R81). -/
theorem and_rowMask_eq_iff (w : Word) {m : Word} {p : Protocol} (hm : m.toNat = (protoCode p).toNat * 2 ^ 24) :
    w &&& Laws.rowMask = m ↔ resHiField w = 0#6 ∧ resLoField w = 0#3 ∧ proto w = some p := by
  have hcode := (protoCode p).isLt
  have hw := w.isLt
  rw [proto_eq_some_iff, ← BitVec.toNat_inj, ← BitVec.toNat_inj, ← BitVec.toNat_inj, ← BitVec.toNat_inj,
    Laws.toNat_and_rowMask, hm, toNat_resHiField, toNat_resLoField, toNat_protoField, BitVec.toNat_ofNat,
    BitVec.toNat_ofNat]
  omega

/-- The legal words with LEN = 0: rule R81's line before the last, read backwards. -/
theorem classify_eq_empty_iff (w : Word) (p : Protocol) :
    classify w = .empty p ↔
      resHiField w = 0#6 ∧ resLoField w = 0#3 ∧ proto w = some p ∧ lenField w = 0#5 := by
  by_cases hh : resHiField w = 0#6
  · by_cases hl : resLoField w = 0#3
    · cases hp : proto w with
      | none => simp [classify, hh, hl, hp]
      | some q => by_cases h0 : lenField w = 0#5 <;> simp [classify, hh, hl, hp, h0]
    · simp [classify, hl]
  · simp [classify, hh]

/-- The decoder rejects exactly the words of class ILLEGAL (log 10). -/
theorem decode_error_iff_illegal (w : Word) : (∃ e, decode w = .error e) ↔ classify w = .illegal := by
  rw [classify_eq_illegal_iff_fields]
  obtain ⟨hh, hd⟩ | ⟨hh, hl, hd⟩ | ⟨hh, hl, hp, hd⟩ | ⟨p, hh, hl, hp, hd⟩ := decode_cases w
  · simp [hd, hh]
  · simp [hd, hl]
  · simp [hd, hp]
  · simp [hd, hh, hl, hp]

/-- The decoder answers a command of the protocol whose row the word matches. -/
theorem exists_decode_ofProtocol_iff (w : Word) (p : Protocol) :
    (∃ l d, decode w = .ok (Instr.ofProtocol p l d)) ↔
      resHiField w = 0#6 ∧ resLoField w = 0#3 ∧ proto w = some p := by
  simp only [decode_eq_ok_iff, protocol_ofProtocol]
  constructor
  · rintro ⟨l, d, hh, hl, hp, -⟩
    exact ⟨hh, hl, hp⟩
  · rintro ⟨hh, hl, hp⟩
    exact ⟨_, _, hh, hl, hp, rfl⟩

/-- LEN is 0 as a field exactly when it is 0 as a number. -/
theorem lenField_eq_zero_iff (w : Word) : lenField w = 0#5 ↔ w.toNat / 2 ^ 16 % 2 ^ 5 = 0 := by
  rw [← toNat_lenField, ← BitVec.toNat_inj]
  rfl

/-- PAYLOAD as a number (rules R70, R75). -/
theorem toNat_payloadField (w : Word) : (payloadField w).toNat = w.toNat % 2 ^ 16 := by
  simp [payloadField, BitVec.extractLsb'_toNat]

/-- Settles O3: a row by its fields, and the fields by the raw bits. -/
theorem decodeFollowsOpcodeTable : Obligations.DecodeFollowsOpcodeTable := by
  intro w
  have hrow {m : Word} {p : Protocol} (hm : m.toNat = (protoCode p).toNat * 2 ^ 24) :
      (∃ l d, decode w = .ok (Instr.ofProtocol p l d)) ↔ w &&& Laws.rowMask = m :=
    (exists_decode_ofProtocol_iff w p).trans (and_rowMask_eq_iff w hm).symm
  refine ⟨hrow (p := .uart) rfl, hrow (p := .spi) rfl, hrow (p := .i2c) rfl, fun i hi => ?_,
    (decode_error_iff_illegal w).trans (classify_eq_illegal_iff w), classify_eq_illegal_iff w, fun p m hpm => ?_⟩
  · obtain ⟨-, -, -, hi⟩ := (decode_eq_ok_iff w i).1 hi
    rw [hi, len_ofProtocol, payload_ofProtocol]
    exact ⟨toNat_lenField w, toNat_payloadField w⟩
  · have hm : m.toNat = (protoCode p).toNat * 2 ^ 24 := by
      simp only [List.mem_cons, Prod.mk.injEq, List.not_mem_nil, or_false] at hpm
      obtain ⟨rfl, rfl⟩ | ⟨rfl, rfl⟩ | ⟨rfl, rfl⟩ := hpm <;> rfl
    have hmask : w &&& 0xFFE00000#32 = m ↔ _ := and_rowMask_eq_iff w hm
    constructor
    · rw [classify_eq_empty_iff, hmask, lenField_eq_zero_iff, and_assoc, and_assoc]
    · intro b
      rw [classify_eq_enc_iff, hmask, Ne, lenField_eq_zero_iff, and_assoc, and_assoc]

/-! ### The padded elements -/

/-- Settles O5: below 16 the padded element is rule R79's, whose bit of the word is a bit of its number. -/
theorem paddedElementsInClosedForm : Obligations.PaddedElementsInClosedForm := by
  intro w n i hn hi
  rw [getElem?_fit (bits w) hi, getD_bits w i (by omega), ← toNat_lenField]
  rfl

end Sys2Proof.Machine

/-! ## The invariant

Each register operation of an edge keeps the invariant, so a step and a run from reset do; and the states a step
refuses, by the raw bits of CMD_R (rules R39, R128). -/

namespace Sys2Proof.Machine

open Host (Outcome)

variable {s t : State}

/-! ### The operations keep the invariant -/

/-- After a reset edge the registers meet the invariant, whatever they were. -/
theorem inv_resetRegisters (s : State) : s.resetRegisters.Inv where
  heldWordDecodes := nofun
  posWithinTrace := nofun
  posZeroWhenNotBusy := fun _ => rfl
  errCodeProduced := by simp [codeNone]
  errIffCode := by simp [codeNone]
  doneNotBusy := nofun
  heldWordNonEmpty := nofun
  noErrorWhilePlaying := nofun

/-- Completion needs nothing of POS and DONE, which it writes. -/
theorem State.Inv.complete (hi : s.Inv) : s.complete.Inv where
  heldWordDecodes := nofun
  posWithinTrace := nofun
  posZeroWhenNotBusy := fun _ => rfl
  errCodeProduced := hi.errCodeProduced
  errIffCode := hi.errIffCode
  doneNotBusy := fun _ => rfl
  heldWordNonEmpty := nofun
  noErrorWhilePlaying := nofun

/-- No trace is too long for the 6 bits of POS (rules R26, R109). -/
theorem traceLen_le (p : Protocol) : traceLen p ≤ 44 := by
  cases p <;> decide

/-- POS does not wrap while there is a sample left (rule R26). -/
theorem State.toNat_advance_pos {p : Protocol} (hlt : s.pos.toNat < traceLen p) :
    s.advance.pos.toNat = s.pos.toNat + 1 := by
  have hle := traceLen_le p
  rw [State.advance_pos, BitVec.toNat_add, BitVec.toNat_ofNat]
  omega

/-- Advance keeps the bound on POS: it is taken only while there is a sample left. -/
theorem State.Inv.advance (hi : s.Inv) (hb : s.busy = true) (hn : ¬ s.TraceShown) : s.advance.Inv where
  heldWordDecodes := hi.heldWordDecodes
  posWithinTrace := fun _ p hp => by
    have hlt : s.pos.toNat < traceLen p := by
      simpa [State.traceShown_iff_of_proto (s := s) hp] using hn
    rw [State.toNat_advance_pos hlt]
    exact hlt
  posZeroWhenNotBusy := fun h => by simp [hb] at h
  errCodeProduced := hi.errCodeProduced
  errIffCode := hi.errIffCode
  doneNotBusy := nofun
  heldWordNonEmpty := hi.heldWordNonEmpty
  noErrorWhilePlaying := hi.noErrorWhilePlaying

/-- The invariant does not look at the inputs. -/
theorem State.Inv.nextCycle (hi : s.Inv) : s.nextCycle.Inv := by
  unfold State.nextCycle
  split <;> exact ⟨hi.1, hi.2, hi.3, hi.4, hi.5, hi.6, hi.7, hi.8⟩

/-- Every effect an edge can have keeps the invariant. -/
theorem EdgeEffect.inv (h : EdgeEffect s t) (hi : s.Inv) : t.Inv := by
  have hin := hi.nextCycle
  cases h with
  | reset => exact inv_resetRegisters _
  | illegal _ hb | empty _ _ hb =>
    exact inv_recordError (by simpa using hb) (by simpa using hi.posZeroWhenNotBusy hb) (by decide)
  | start _ _ _ _ _ hw => exact inv_startCommand hw _
  | idle | hold => exact (sameButDone_hold s).inv hi rfl
  | advance _ hb _ hn =>
    exact hin.advance (by simpa using hb) (by simpa [State.TraceShown] using hn)
  | complete => exact hin.complete

theorem State.Inv.step (hi : s.Inv) (h : step s = .next t) : t.Inv := (edgeEffect_of_step h).inv hi

/-- Settles O43: the step has one of the eight effects, and each keeps the invariant. -/
theorem stepKeepsTheInvariant : Obligations.StepKeepsTheInvariant := fun _ _ hi h => hi.step h

/-- Settles O44, with the next state found for the next-state function. -/
theorem invariantStatesAlwaysGoOn : Obligations.InvariantStatesAlwaysGoOn := fun _ hi => hi.step_isNext

/-! ### Reset -/

/-- The reset state is what a reset edge leaves, whatever inputs follow. -/
theorem inv_reset (ins : List Pins) (n : Nat) : State.Inv { State.reset with inputs := ins, unscripted := n } :=
  inv_resetRegisters { State.reset with inputs := ins, unscripted := n }

/-- Settles O42. -/
theorem resetMeetsTheInvariant : Obligations.ResetMeetsTheInvariant := inv_reset

/-- Settles O41: the registers by definition, and the lines of a block that is not busy. -/
theorem resetRegisterValues : Obligations.ResetRegisterValues := by
  refine ⟨rfl, rfl, rfl, rfl, rfl, rfl, ?_, fun ins => ?_⟩
  · exact (inv_reset [] 0).lines_of_inactive rfl
  · intro s hr
    rw [State.status, State.cmdReadyOut, hr]
    rfl

/-- Settles O24: reset comes first, and its next state is idle and meets the invariant. -/
theorem resetEdgeClearsEverything : Obligations.ResetEdgeClearsEverything := by
  intro s hr
  have hinv := inv_resetRegisters s.nextCycle
  exact ⟨by simp [State.cmdReadyOut, hr], _, step_of_reset hr, rfl, hinv.lines_of_inactive rfl, hinv⟩

/-! ### Runs keep the invariant -/

/-- A run from a state of the invariant goes through and ends in one. -/
theorem State.Inv.run (hi : s.Inv) (k : Nat) : ∃ t, runSteps k s = .next t ∧ t.Inv := by
  induction k generalizing s with
  | zero => exact ⟨s, rfl, hi⟩
  | succ k ih =>
    obtain ⟨u, hu⟩ := hi.step_isNext
    rw [runSteps_succ_of_step hu]
    exact ih (hi.step hu)

/-- Settles O46, from the reset state with any inputs. -/
theorem noRunFromResetLeavesTheInvariant : Obligations.NoRunFromResetLeavesTheInvariant :=
  fun ins n k => (inv_reset ins n).run k

/-! ### The states a step refuses -/

/-- A step goes on or refuses; there is no fault (rule R238). -/
theorem step_next_or_refused (s : State) : (∃ t, step s = .next t) ∨ ∃ why, step s = .refused why := by
  cases h : step s with
  | next t => exact .inl ⟨t, rfl⟩
  | fault r => exact nomatch r
  | refused why => exact .inr ⟨why, rfl⟩

/-- A state with a clause of rule R128 is refused by that name. -/
theorem step_of_unreachable {why : Refusal} (hr : s.pins.rst = false) (hu : s.unreachable = some why) :
    step s = .refused why := by
  simp [step, clockEdge, hr, hu]

theorem State.proto_isSome_of_reachable (hu : s.unreachable = none) (hb : s.busy = true) :
    ∃ p, proto s.cmdR = some p := by
  obtain ⟨hword, -⟩ := (unreachable_eq_none_iff s).1 hu
  obtain ⟨i, hi⟩ := (holdsIllegalWord_iff _).1 (hword hb)
  obtain ⟨-, -, hp, -⟩ := (decode_eq_ok_iff _ i).1 hi
  exact ⟨_, hp⟩

/-- Without a clause of rule R128 a step goes on. -/
theorem step_isNext_of_reachable (hu : s.unreachable = none) : ∃ t, step s = .next t := by
  cases hr : s.pins.rst with
  | true => exact ⟨_, step_of_reset hr⟩
  | false =>
    cases hb : s.busy with
    | true =>
      cases ht : s.pins.tick with
      | true =>
        obtain ⟨p, hp⟩ := State.proto_isSome_of_reachable hu hb
        rw [step_of_tick hu hr hb ht]
        exact tickEdge_isNext (p := p) (by simpa using hp)
      | false => exact ⟨_, step_of_hold hu hr (.inl ⟨hb, ht⟩)⟩
    | false =>
      cases hv : s.pins.cmdValid with
      | true =>
        rw [step_of_offer hu hv (by simp [State.cmdReadyOut, hb, hr])]
        exact acceptEdge_isNext _ _
      | false => exact ⟨_, step_of_hold hu hr (.inr ⟨hb, hv⟩)⟩

/-- Refusal is rule R128's check at an edge without reset (log 2). -/
theorem step_refused_iff (s : State) :
    (∃ why, step s = .refused why) ↔ s.pins.rst = false ∧ s.unreachable ≠ none := by
  constructor
  · rintro ⟨why, h⟩
    constructor
    · by_contra hr
      simp [step_of_reset (s := s) (by simpa using hr)] at h
    · intro hu
      obtain ⟨t, ht⟩ := step_isNext_of_reachable hu
      simp [ht] at h
  · rintro ⟨hr, hu⟩
    obtain ⟨why, hwhy⟩ := Option.ne_none_iff_exists'.1 hu
    exact ⟨why, step_of_unreachable hr hwhy⟩

/-- The first clause of rule R128 by the raw bits of the word. -/
theorem holdsIllegalWord_eq_false_iff (w : Word) :
    holdsIllegalWord w = false ↔
      ¬ (w.toNat / 2 ^ 26 ≠ 0 ∨ w.toNat / 2 ^ 21 % 2 ^ 3 ≠ 0 ∨ w.toNat / 2 ^ 24 % 2 ^ 2 = 3) := by
  rw [← classify_eq_illegal_iff, classify_eq_illegal_iff_fields]
  simp [holdsIllegalWord, Option.isSome_iff_ne_none, and_assoc]

/-- Settles O45: a refusal is a clause of rule R128, and each clause is one of the listed. -/
theorem stepRefusesExactlyTheUnreachableStates : Obligations.StepRefusesExactlyTheUnreachableStates := by
  intro s
  rw [step_refused_iff, Ne, unreachable_eq_none_iff, holdsIllegalWord_eq_false_iff, posBeyondTrace_iff]
  refine and_congr_right fun _ => ?_
  simp only [codeReserved, codeNone, not_and_or, Classical.not_imp, not_forall, not_not, not_le,
    Bool.not_eq_false, ne_eq]

end Sys2Proof.Machine

/-! ## Offered commands

What `exec` and the step do with a command that is offered, and the host that offers one (rules R115, R122, R234, R268,
R269). -/

namespace Sys2Proof.Machine

variable {s t : State}

/-! ### The three meanings -/

/-- The word of a command as the number of rule R86. -/
theorem commandWord_eq_ofNat (p : Protocol) (l : BitVec 5) (d : BitVec 16) :
    commandWord p l d = BitVec.ofNat 32 ((protoCode p).toNat * 2 ^ 24 + l.toNat * 2 ^ 16 + d.toNat) := by
  rw [← toNat_commandWord, BitVec.ofNat_toNat, BitVec.setWidth_eq]

/-- A command with LEN not 0 starts when the block is not busy (rule R115). -/
theorem exec_legal {i : Instr} (hb : s.busy = false) (hl : i.len ≠ 0#5) :
    exec i s = .next (s.startCommand
      (BitVec.ofNat 32 ((protoCode i.protocol).toNat * 2 ^ 24 + i.len.toNat * 2 ^ 16 + i.payload.toNat))) := by
  rw [exec_eq_offerCommand, offerCommand_legal _ _ _ hb hl, commandWord_eq_ofNat]

/-- A command with LEN = 0 records EMPTY when the block is not busy (rule R234). -/
theorem exec_empty {i : Instr} (hb : s.busy = false) (hl : i.len = 0#5) :
    exec i s = .next (s.recordError codeEmpty) := by
  rw [exec_eq_offerCommand, hl, offerCommand_empty _ _ hb]

/-- A busy block leaves a command be (rule R122, log 5). -/
theorem exec_busy (i : Instr) (hb : s.busy = true) : exec i s = .next s := by
  rw [exec_eq_offerCommand, offerCommand_busy _ _ _ hb]

/-- Settles O17: the three commands start alike, each with its own PROTO. -/
theorem legalCommandStarts : Obligations.LegalCommandStarts :=
  fun l d _ hb hl => ⟨exec_legal (i := .uart l d) hb hl, exec_legal (i := .spi l d) hb hl,
    exec_legal (i := .i2c l d) hb hl⟩

/-- Settles O18. -/
theorem emptyCommandRecordsEmpty : Obligations.EmptyCommandRecordsEmpty :=
  fun d _ hb => ⟨exec_empty (i := .uart 0#5 d) hb rfl, exec_empty (i := .spi 0#5 d) hb rfl,
    exec_empty (i := .i2c 0#5 d) hb rfl⟩

/-- Settles O19. -/
theorem commandWaitsWhileBusy : Obligations.CommandWaitsWhileBusy :=
  fun _ _ _ hb => ⟨exec_busy _ hb, exec_busy _ hb, exec_busy _ hb⟩

/-! ### The step that takes a command -/

/-- The acceptance of a word that decodes runs its command. -/
theorem acceptEdge_of_decode {w : Word} {i : Instr} (h : decode w = .ok i) (s : State) :
    acceptEdge w s = exec i s := by
  simp only [acceptEdge, h]

/-- A ready block of the invariant that is offered a word that decodes runs its command (rule R115). -/
theorem State.Inv.step_eq_exec {i : Instr} (hi : s.Inv) (hr : s.pins.rst = false) (hb : s.busy = false)
    (hv : s.pins.cmdValid = true) (hd : decode s.pins.cmd = .ok i) : Machine.step s = exec i s.nextCycle := by
  rw [step_of_offer hi.unreachable_eq_none hv (by simp [State.cmdReadyOut, hb, hr]), acceptEdge_of_decode hd]

/-- Settles O20. -/
theorem stepRunsTheDecodedCommand : Obligations.StepRunsTheDecodedCommand :=
  fun _ _ hi hr hb hv hd => hi.step_eq_exec hr hb hv hd

/-- Placing a word stops the held command and keeps the error status, so it keeps the invariant (log 4). -/
theorem State.Inv.withFetchWord (hi : s.Inv) (nbits w : Nat) : (s.withFetchWord nbits w).Inv where
  heldWordDecodes := nofun
  posWithinTrace := nofun
  posZeroWhenNotBusy := fun _ => rfl
  errCodeProduced := hi.errCodeProduced
  errIffCode := hi.errIffCode
  doneNotBusy := fun _ => rfl
  heldWordNonEmpty := nofun
  noErrorWhilePlaying := nofun

theorem decode_of_decodeTableWord {nbits w : Nat} {i : Instr} (h : decodeTableWord nbits w = some i) :
    decode (BitVec.ofNat 32 (w % 2 ^ nbits)) = .ok i := by
  unfold decodeTableWord at h
  cases hd : decode (BitVec.ofNat 32 (w % 2 ^ nbits)) with
  | error e => simp [hd, Except.toOption] at h
  | ok j =>
    obtain rfl : j = i := by simpa [hd, Except.toOption] using h
    rfl

/-- Settles O21: the state with the word placed meets the invariant and offers that word. -/
theorem fetchedWordRunsNext : Obligations.FetchedWordRunsNext :=
  fun _ w _ hi h => (hi.withFetchWord 32 w).step_eq_exec rfl rfl rfl (decode_of_decodeTableWord h)

/-- Settles O35: a block that is not busy does not look at the tick. -/
theorem tickIsIgnoredWhenNotBusy : Obligations.TickIsIgnoredWhenNotBusy := by
  intro s p rest b hin hb
  exact step_congr_of_listed_pins hin { p with tick := b } rfl (fun _ hbusy => by simp [hb] at hbusy)
    (fun _ _ => rfl) (fun _ _ _ => rfl)

/-! ### The host's offer -/

/-- Settles O52: the host reads `cmd_ready` of the cycle in which it offers. -/
theorem hostHoldsItsOfferUntilTaken : Obligations.HostHoldsItsOfferUntilTaken := by
  intro s rst tick w rest hi
  constructor
  · intro h
    have hready : (!s.busy && !rst) = false := by
      obtain h | h := h <;> simp [h]
    simp [hostEdge, hostPins, State.cmdReadyOut, hready]
  · rintro hb rfl
    have hready : State.cmdReadyOut { s with inputs := ⟨false, tick, true, w⟩ :: s.inputs } = true := by
      simp [State.cmdReadyOut, hb]
    have hstep := step_of_offer (s := { s with inputs := ⟨false, tick, true, w⟩ :: s.inputs })
      hi.unreachable_eq_none rfl hready
    simp only [hostEdge, hostPins, hready, hstep]
    rfl

/-! ### What a step leaves of the inputs and of CMD_R -/

theorem State.nextCycle_unscripted (s : State) :
    s.nextCycle.unscripted = s.unscripted + if s.inputs = [] then 1 else 0 := by
  unfold State.nextCycle
  split <;> simp_all

/-- Settles O22: a step leaves the input fields as the end of the cycle does. -/
theorem stepUsesOneCycleOfInputs : Obligations.StepUsesOneCycleOfInputs := by
  intro s t h
  obtain ⟨hin, hun⟩ := step_inputs h
  exact ⟨hin.trans s.nextCycle_inputs, hun.trans s.nextCycle_unscripted⟩

/-- Settles O32, effect by effect: reset and the start of a command write CMD_R, and nothing else does. -/
theorem cmdRIsWrittenOnlyByAcceptance : Obligations.CmdRIsWrittenOnlyByAcceptance := by
  intro s t _ h
  cases edgeEffect_of_step h with
  | reset hr => simp [hr]
  | illegal hr _ _ hw | empty _ hr _ _ hw => simp [hr, hw]
  | start _ _ hr hb hv hw => simp [hr, hb, hv, hw]
  | idle hr _ hv => simp [hr, hv]
  | advance hr hb | complete hr hb | hold hr hb => simp [hr, hb]

/-! ### Blocks that are not busy -/

/-- The inputs of the current cycle depend on the two input fields alone. -/
theorem pins_congr (hin : t.inputs = s.inputs) (hun : t.unscripted = s.unscripted) : t.pins = s.pins :=
  pinsAt_congr hin hun 0

/-- The start of a command writes every register. -/
theorem startCommand_congr (hin : t.inputs = s.inputs) (hun : t.unscripted = s.unscripted) (w : Word) :
    t.startCommand w = s.startCommand w :=
  State.ext rfl rfl rfl rfl rfl rfl hin hun

/-- Settles O50: acceptance writes every register, so nothing of either history is left. -/
theorem historyDoesNotReachATrace : Obligations.HistoryDoesNotReachATrace := by
  intro s s' p b hi hi' hb hb' hin hun hr hv hc
  have hpins : s'.pins = s.pins := pins_congr hin hun
  rw [hi.step_eq_takeWord hr hb hv, hi'.step_eq_takeWord (by rw [hpins, hr]) hb' (by rw [hpins, hv]), hpins,
    State.takeWord_of_enc hc, State.takeWord_of_enc hc,
    startCommand_congr (s := s.nextCycle) (by simp [hin]) (by simp [State.nextCycle_unscripted, hin, hun])]

namespace SameButIdleCmdR

theorem refl (s : State) : SameButIdleCmdR s s := ⟨rfl, rfl, rfl, rfl, rfl, rfl, rfl, fun _ => rfl⟩

/-- A held command leaves no difference. -/
theorem eq_of_busy (h : SameButIdleCmdR s t) (hb : s.busy = true) : s = t :=
  State.ext (h.cmdR hb) h.busy h.pos h.err h.errCode h.done h.inputs h.unscripted

theorem pins_eq (h : SameButIdleCmdR s t) : s.pins = t.pins := pins_congr h.inputs h.unscripted

theorem status_eq (h : SameButIdleCmdR s t) : s.status = t.status := by
  simp only [State.status, State.cmdReadyOut, h.pins_eq, h.busy, h.done, h.err, h.errCode]

/-- Rule R128 looks at CMD_R only while busy. -/
theorem unreachable_eq (h : SameButIdleCmdR s t) : s.unreachable = t.unreachable := by
  cases hb : s.busy with
  | true => rw [h.eq_of_busy hb]
  | false =>
    have hbt : t.busy = false := h.busy.symm.trans hb
    simp only [State.unreachable, hb, hbt, h.pos, h.err, h.errCode, h.done, Bool.false_and]

/-- So do the lines (rule R123). -/
theorem lines_eq (h : SameButIdleCmdR s t) : s.lines = t.lines := by
  cases hb : s.busy with
  | true => rw [h.eq_of_busy hb]
  | false =>
    have hline : ∀ n, s.line n = t.line n := fun n => by
      simp only [State.line, State.active, ← h.busy, hb, Bool.false_and]
      rfl
    simp only [State.lines, h.unreachable_eq, hline]

theorem nextCycle (h : SameButIdleCmdR s t) : SameButIdleCmdR s.nextCycle t.nextCycle where
  busy := by simpa using h.busy
  pos := by simpa using h.pos
  err := by simpa using h.err
  errCode := by simpa using h.errCode
  done := by simpa using h.done
  inputs := by simp [h.inputs]
  unscripted := by simp [State.nextCycle_unscripted, h.inputs, h.unscripted]
  cmdR := by simpa using h.cmdR

theorem resetRegisters (h : SameButIdleCmdR s t) : SameButIdleCmdR s.resetRegisters t.resetRegisters :=
  ⟨rfl, rfl, rfl, rfl, rfl, h.inputs, h.unscripted, fun _ => rfl⟩

theorem recordError (h : SameButIdleCmdR s t) (code : BitVec 2) :
    SameButIdleCmdR (s.recordError code) (t.recordError code) :=
  ⟨h.busy, h.pos, rfl, rfl, rfl, h.inputs, h.unscripted, h.cmdR⟩

theorem clearDone (h : SameButIdleCmdR s t) : SameButIdleCmdR s.clearDone t.clearDone :=
  ⟨h.busy, h.pos, h.err, h.errCode, rfl, h.inputs, h.unscripted, h.cmdR⟩

/-- A word is taken without a look at the old CMD_R. -/
theorem takeWord (h : SameButIdleCmdR s t) (w : Word) : SameButIdleCmdR (s.takeWord w) (t.takeWord w) := by
  cases hc : classify w with
  | illegal => simpa only [State.takeWord_of_illegal hc] using h.recordError codeIllegal
  | empty p => simpa only [State.takeWord_of_empty hc] using h.recordError codeEmpty
  | enc p b =>
    simp only [State.takeWord_of_enc hc, startCommand_congr h.inputs h.unscripted]
    exact refl _

/-- The steps of two such states that go on are two such states. -/
theorem step_next (h : SameButIdleCmdR s t) (hu : s.unreachable = none) (hr : s.pins.rst = false)
    (hb : s.busy = false) : ∃ u v, step s = .next u ∧ step t = .next v ∧ SameButIdleCmdR u v := by
  have hut : t.unreachable = none := h.unreachable_eq.symm.trans hu
  have hbt : t.busy = false := h.busy.symm.trans hb
  have hrt : t.pins.rst = false := h.pins_eq ▸ hr
  cases hv : s.pins.cmdValid with
  | true =>
    have hvt : t.pins.cmdValid = true := h.pins_eq ▸ hv
    refine ⟨_, _, ?_, ?_, h.nextCycle.takeWord s.pins.cmd⟩
    · rw [step_of_offer hu hv (by simp [State.cmdReadyOut, hb, hr]), acceptEdge_eq_takeWord _ (by simpa using hb)]
    · rw [step_of_offer hut hvt (by simp [State.cmdReadyOut, hbt, hrt]),
        acceptEdge_eq_takeWord _ (by simpa using hbt), h.pins_eq]
  | false =>
    have hvt : t.pins.cmdValid = false := h.pins_eq ▸ hv
    exact ⟨_, _, step_of_hold hu hr (.inr ⟨hb, hv⟩), step_of_hold hut hrt (.inr ⟨hbt, hvt⟩), h.nextCycle.clearDone⟩

end SameButIdleCmdR

/-- Settles O51: a held command leaves no difference, and a block that is not busy does not look at CMD_R. -/
theorem idleCmdRIsInvisible : Obligations.IdleCmdRIsInvisible := by
  intro s s' h
  refine ⟨h.status_eq, h.lines_eq, ?_⟩
  cases hb : s.busy with
  | true =>
    obtain rfl := h.eq_of_busy hb
    obtain ⟨t, ht⟩ | ⟨why, hwhy⟩ := step_next_or_refused s
    · exact .inr ⟨t, t, ht, ht, .refl t⟩
    · exact .inl ⟨why, hwhy, hwhy⟩
  | false =>
    cases hr : s.pins.rst with
    | true =>
      exact .inr ⟨_, _, step_of_reset hr, step_of_reset (h.pins_eq ▸ hr), h.nextCycle.resetRegisters⟩
    | false =>
      cases hu : s.unreachable with
      | some why =>
        exact .inl ⟨why, step_of_unreachable hr hu,
          step_of_unreachable (h.pins_eq ▸ hr) (h.unreachable_eq ▸ hu)⟩
      | none => exact .inr (h.step_next hu hr hb)

end Sys2Proof.Machine

/-! ## A command that plays

The tick edges of a held command, and runs of edges without a reset while it plays: one sample per tick, then completion
(rules R116, R117, R121, R122, R126, R127). -/

namespace Sys2Proof.Machine

variable {s t : State} {p : Protocol}

/-! ### One tick -/

/-- A tick below the end of the trace advances (rule R116). -/
theorem State.Inv.step_eq_advance (hi : s.Inv) (hr : s.pins.rst = false) (hb : s.busy = true) (ht : s.pins.tick = true)
    (hp : proto s.cmdR = some p) (hlt : s.pos.toNat < traceLen p) : Machine.step s = .next s.nextCycle.advance := by
  simp [step_of_tick hi.unreachable_eq_none hr hb ht, tickEdge, hp, hlt]

/-- A tick at the end of the trace completes (rule R117). -/
theorem State.Inv.step_eq_complete (hi : s.Inv) (hr : s.pins.rst = false) (hb : s.busy = true)
    (ht : s.pins.tick = true) (hp : proto s.cmdR = some p) (heq : s.pos.toNat = traceLen p) :
    Machine.step s = .next s.nextCycle.complete := by
  simp [step_of_tick hi.unreachable_eq_none hr hb ht, tickEdge, hp, heq]

/-- After the first tick a line of the held command's protocol shows a sample (rule R123). -/
theorem State.line_of_playing {n : SignalName} (hb : s.busy = true) (hpos : 1 ≤ s.pos.toNat)
    (hp : proto s.cmdR = some n.protocol) : s.line n = sample s.cmdR n (s.pos.toNat - 1) := by
  rw [State.line, if_pos]
  simp [State.active, hb, hpos, hp]

/-- A state of the invariant shows six levels. -/
theorem State.Inv.lines_isSome (hi : s.Inv) : ∃ l, s.lines = some l := by
  obtain ⟨-, l, hl, -⟩ := linesIdleUnlessPlaying s hi
  exact ⟨l, hl⟩

/-- A completed command leaves the lines idle (rule R117). -/
theorem State.Inv.lines_complete (hi : s.Inv) :
    s.complete.lines = some ⟨true, true, false, false, true, true⟩ :=
  hi.complete.lines_of_inactive (State.active_eq_false (.inl rfl))

/-- Settles O27: the tick advances POS, which the lines of the protocol follow. -/
theorem advanceShowsTheNextSample : Obligations.AdvanceShowsTheNextSample := by
  intro s p hi hr hb ht hp hlt
  have hpos : s.nextCycle.advance.pos.toNat = s.pos.toNat + 1 := by
    rw [State.toNat_advance_pos (p := p) (by simpa using hlt), State.nextCycle_pos]
  refine ⟨_, hi.step_eq_advance hr hb ht hp hlt, s.nextCycle_advance, hpos, ?_⟩
  rintro n rfl
  refine ⟨?_, sample_isSome (hi.classify_held hb hp) hlt⟩
  rw [State.line_of_playing (by simpa using hb) (by omega) (by simpa using hp), hpos, State.advance_cmdR,
    State.nextCycle_cmdR, Nat.add_sub_cancel]

/-- Settles O28. -/
theorem completionPulsesDone : Obligations.CompletionPulsesDone :=
  fun _ _ hi hr hb ht hp heq => ⟨_, hi.step_eq_complete hr hb ht hp heq, rfl, hi.nextCycle.lines_complete⟩

/-! ### Runs while a command plays -/

/-- `t` still plays the command that `s` plays, `m` ticks later. -/
structure PlaysOn (s : State) (m : Nat) (t : State) : Prop where
  inv : t.Inv
  cmdR : t.cmdR = s.cmdR
  busy : t.busy = true
  pos : t.pos.toNat = s.pos.toNat + m
  err : t.err = s.err
  errCode : t.errCode = s.errCode

/-- DONE is 0 while a command plays (rule R29). -/
theorem State.Inv.done_eq_false (hi : s.Inv) (hb : s.busy = true) : s.done = false := by
  by_contra hd
  simp [hi.doneNotBusy (by simpa using hd)] at hb

/-- An edge without a tick keeps the sample. -/
theorem PlaysOn.hold {m : Nat} (h : PlaysOn s m t) (hr : t.pins.rst = false) (ht : t.pins.tick = false) :
    ∃ u, step t = .next u ∧ PlaysOn s m u := by
  have hstep := step_of_hold h.inv.unreachable_eq_none hr (.inl ⟨h.busy, ht⟩)
  exact ⟨_, hstep, h.inv.step hstep, by simp [h.cmdR], by simp [h.busy], by simp [h.pos], by simp [h.err],
    by simp [h.errCode]⟩

/-- An edge with a tick shows the next sample, if there is one. -/
theorem PlaysOn.tick {m : Nat} (h : PlaysOn s m t) (hr : t.pins.rst = false) (ht : t.pins.tick = true)
    (hp : proto s.cmdR = some p) (hlt : s.pos.toNat + m < traceLen p) :
    ∃ u, step t = .next u ∧ PlaysOn s (m + 1) u := by
  have hlt' : t.pos.toNat < traceLen p := by rw [h.pos]; exact hlt
  have hstep := h.inv.step_eq_advance hr h.busy ht (by rw [h.cmdR, hp]) hlt'
  have hpos : t.nextCycle.advance.pos.toNat = s.pos.toNat + (m + 1) := by
    rw [State.toNat_advance_pos (p := p) (by simpa using hlt'), State.nextCycle_pos, h.pos, Nat.add_assoc]
  exact ⟨_, hstep, h.inv.step hstep, by simp [h.cmdR], by simp [h.busy], hpos, by simp [h.err], by simp [h.errCode]⟩

/-- The last state of a run sees the inputs of the cycle after it. -/
theorem pins_runSteps {k : Nat} (h : runSteps k s = .next t) : t.pins = s.pinsAt k := by
  simpa using pinsAt_runSteps h 0

/-- A held command plays on through any edges without a reset, one sample per tick, up to its last sample (rule
R126). -/
theorem State.Inv.plays_run {k : Nat} (hi : s.Inv) (hb : s.busy = true) (hp : proto s.cmdR = some p)
    (hr : s.noResetFor k) (hle : s.pos.toNat + s.ticksIn k ≤ traceLen p) :
    ∃ t, runSteps k s = .next t ∧ PlaysOn s (s.ticksIn k) t := by
  induction k with
  | zero => exact ⟨s, rfl, hi, rfl, hb, rfl, rfl, rfl⟩
  | succ k ih =>
    have hticks : s.ticksIn (k + 1) = s.ticksIn k + (s.pinsAt k).tick.toNat := rfl
    obtain ⟨t, hrun, hplay⟩ := ih (fun j hj => hr j (by omega)) (by omega)
    have hpins := pins_runSteps hrun
    have hrst : t.pins.rst = false := hpins ▸ hr k (by omega)
    cases htick : (s.pinsAt k).tick with
    | false =>
      obtain ⟨u, hstep, hu⟩ := hplay.hold hrst (hpins ▸ htick)
      exact ⟨u, runSteps_add_one hrun hstep, by simpa [hticks, htick] using hu⟩
    | true =>
      have hsucc : s.ticksIn (k + 1) = s.ticksIn k + 1 := by rw [hticks, htick]; rfl
      obtain ⟨u, hstep, hu⟩ := hplay.tick hrst (hpins ▸ htick) hp (by omega)
      exact ⟨u, runSteps_add_one hrun hstep, hsucc ▸ hu⟩

/-- The tick after the last sample completes the command (rule R127). -/
theorem State.Inv.completes_run {k : Nat} (hi : s.Inv) (hb : s.busy = true) (hp : proto s.cmdR = some p)
    (hr : s.noResetFor k) (heq : s.pos.toNat + s.ticksIn k = traceLen p) (hrst : (s.pinsAt k).rst = false)
    (htick : (s.pinsAt k).tick = true) :
    ∃ t, PlaysOn s (s.ticksIn k) t ∧ runSteps (k + 1) s = .next t.nextCycle.complete := by
  obtain ⟨t, hrun, hplay⟩ := hi.plays_run hb hp hr heq.le
  have hpins := pins_runSteps hrun
  have hstep := hplay.inv.step_eq_complete (hpins ▸ hrst) hplay.busy (hpins ▸ htick) (by rw [hplay.cmdR, hp])
    (by rw [hplay.pos, heq])
  exact ⟨t, hplay, runSteps_add_one hrun hstep⟩

/-! ### The statements about runs -/

/-- The sample of a held command is the sample of its encoded trace (rules R104, R124). -/
theorem State.Inv.sample_eq {tr : SignalTraceSet} (hi : s.Inv) (hb : s.busy = true) (hp : proto s.cmdR = some p)
    (htr : encodeTrace p (bits s.cmdR) = .ok tr) (n : SignalName) (k : Nat) :
    sample s.cmdR n k = (tr.levelsOf n).bind (fun l => l[k]?) := by
  rw [sample, trace_of_classify (hi.classify_held hb hp), htr]
  rfl

/-- The line of a signal while a command plays (rules R123, R125, R126). -/
theorem State.Inv.line_eq {tr : SignalTraceSet} (hi : s.Inv) (hb : s.busy = true) (hp : proto s.cmdR = some p)
    (htr : encodeTrace p (bits s.cmdR) = .ok tr) (n : SignalName) :
    s.line n = if n.protocol = p ∧ 1 ≤ s.pos.toNat then (tr.levelsOf n).bind (fun l => l[s.pos.toNat - 1]?)
      else some n.idleLevel := by
  split_ifs with h
  · obtain ⟨rfl, hpos⟩ := h
    rw [State.line_of_playing hb hpos hp, hi.sample_eq hb hp htr]
  · refine State.line_of_not_playing fun hact hn => h ⟨?_, ?_⟩
    · exact Option.some.inj (hn.symm.trans hp)
    · simpa [State.active, hb] using hact

/-- Settles O47: POS counts the ticks, and the lines show the sample POS names. -/
theorem playedTraceIsTheEncodedTrace : Obligations.PlayedTraceIsTheEncodedTrace := by
  intro s p tr k hi hb hpos hp htr hr
  have hpos0 : s.pos.toNat = 0 := by rw [hpos]; rfl
  constructor
  · intro hle
    obtain ⟨t, hrun, h⟩ := hi.plays_run hb hp hr (by omega)
    have hpos' : t.pos.toNat = s.ticksIn k := by rw [h.pos, hpos0, Nat.zero_add]
    refine ⟨t, hrun, h.cmdR, h.busy, hpos', h.inv.lines_isSome, fun n => ?_⟩
    rw [h.inv.line_eq h.busy (by rw [h.cmdR, hp]) (by rw [h.cmdR, htr]), hpos']
  · intro heq hrst htick
    obtain ⟨t, h, hrun⟩ := hi.completes_run hb hp hr (by omega) hrst htick
    exact ⟨_, hrun, by simp [h.cmdR], rfl, rfl, rfl, by simp [h.err], by simp [h.errCode],
      h.inv.nextCycle.lines_complete⟩

/-- A tick in every cycle. -/
theorem State.ticksIn_of_all {k : Nat} (h : ∀ j < k, (s.pinsAt j).tick = true) : s.ticksIn k = k := by
  induction k with
  | zero => rfl
  | succ k ih => rw [State.ticksIn, ih fun j hj => h j (by omega), h k (by omega)]; rfl

/-- Settles O48: from the accepted word on, each tick shows a sample and the next one completes. -/
theorem commandCompletesInItsTickCount : Obligations.CommandCompletesInItsTickCount := by
  intro s p b n hn hi hb hr hv hc hpins
  obtain rfl : n = traceLen p + 1 := by
    simp only [List.mem_cons, Prod.mk.injEq, List.not_mem_nil, or_false] at hn
    obtain ⟨rfl, rfl⟩ | ⟨rfl, rfl⟩ | ⟨rfl, rfl⟩ := hn <;> rfl
  obtain ⟨-, -, hp, -, -⟩ := (classify_eq_enc_iff s.pins.cmd p b).1 hc
  have hstep : step s = .next (s.nextCycle.startCommand s.pins.cmd) := by
    rw [hi.step_eq_takeWord hr hb hv, State.takeWord_of_enc hc]
  generalize ht : s.nextCycle.startCommand s.pins.cmd = t at hstep
  have hit : t.Inv := ht ▸ inv_startCommand hc _
  have hbt : t.busy = true := ht ▸ rfl
  have hcmd : t.cmdR = s.pins.cmd := ht ▸ rfl
  have hpos : t.pos.toNat = 0 := ht ▸ rfl
  have hpt : proto t.cmdR = some p := hcmd ▸ hp
  have hlater : ∀ j ≤ traceLen p, (t.pinsAt j).rst = false ∧ (t.pinsAt j).tick = true := fun j hj => by
    rw [pinsAt_step hstep]
    exact hpins (j + 1) (by omega) (by omega)
  have hnr : ∀ k ≤ traceLen p, t.noResetFor k := fun k hk j hj => (hlater j (by omega)).1
  have hticks : ∀ k ≤ traceLen p, t.ticksIn k = k := fun k hk =>
    State.ticksIn_of_all fun j hj => (hlater j (by omega)).2
  constructor
  · intro j hj hjn
    obtain ⟨k, rfl⟩ : ∃ k, j = k + 1 := ⟨j - 1, by omega⟩
    have hk : k ≤ traceLen p := by omega
    obtain ⟨u, hrun, h⟩ := hit.plays_run hbt hpt (hnr k hk) (by rw [hticks k hk]; omega)
    exact ⟨u, by rw [runSteps_succ_of_step hstep, hrun], h.busy, h.inv.done_eq_false h.busy⟩
  · obtain ⟨hrst, htick⟩ := hlater _ le_rfl
    obtain ⟨u, h, hrun⟩ := hit.completes_run hbt hpt (hnr _ le_rfl) (by rw [hticks _ le_rfl]; omega) hrst htick
    exact ⟨_, by rw [runSteps_succ_of_step hstep, hrun], rfl, rfl, by simp [h.cmdR, hcmd]⟩

/-- Ticks are counted by the levels on `tick` alone. -/
theorem State.ticksIn_congr {k : Nat} (h : ∀ j < k, (t.pinsAt j).tick = (s.pinsAt j).tick) :
    t.ticksIn k = s.ticksIn k := by
  induction k with
  | zero => rfl
  | succ k ih => rw [State.ticksIn, State.ticksIn, ih fun j hj => h j (by omega), h k (by omega)]

/-- Settles O49: both runs play the same command for the same number of ticks. -/
theorem offeredWordsDoNotDisturbATrace : Obligations.OfferedWordsDoNotDisturbATrace := by
  intro s s' p k hi hb hp hcmd hbusy hpos herr hcode hdone hpins hr hle
  have hi' : s'.Inv := SameButDone.inv ⟨hcmd, hbusy, hpos, herr, hcode⟩ hi (hdone.trans (hi.done_eq_false hb))
  have hticks : s'.ticksIn k = s.ticksIn k := State.ticksIn_congr fun j hj => (hpins j hj).2
  have hr' : s'.noResetFor k := fun j hj => (hpins j hj).1.trans (hr j hj)
  obtain ⟨t, hrun, h⟩ := hi.plays_run hb hp hr hle
  obtain ⟨t', hrun', h'⟩ := hi'.plays_run (hbusy.trans hb) (by rw [hcmd, hp]) hr' (by rw [hpos, hticks]; exact hle)
  have hcmd' : t'.cmdR = t.cmdR := by rw [h'.cmdR, h.cmdR, hcmd]
  have hbusy' : t'.busy = t.busy := by rw [h'.busy, h.busy]
  have hpos' : t'.pos = t.pos := BitVec.eq_of_toNat_eq (by rw [h'.pos, h.pos, hpos, hticks])
  refine ⟨t, t', hrun, hrun', hcmd', hbusy', hpos', by rw [h'.err, h.err, herr], by rw [h'.errCode, h.errCode, hcode],
    by rw [h'.inv.done_eq_false h'.busy, h.inv.done_eq_false h.busy], ?_⟩
  exact State.lines_congr (by rw [h'.inv.unreachable_eq_none, h.inv.unreachable_eq_none]) hcmd' hbusy' hpos'

end Sys2Proof.Machine

/-! ## The Signals of a trace, sample by sample

The shape of each trace set, the elements a trace reads, and the level of every sample of TX, MOSI, SCL and SDA in terms
of the elements sent (rules R106 to R112, R143, R166, R187). -/

namespace Sys2Proof.Machine

variable {b : BitSequence} {e : Nat → Level}

/-! ### The elements a trace reads -/

/-- The first `m` elements of a sequence are those of its truncation to `m`. -/
theorem getD_take {m i : Nat} (hi : i < m) : (b.take m).getD i false = b.getD i false := by
  rw [List.getD_eq_getElem?_getD, List.getElem?_take_of_lt hi, List.getD_eq_getElem?_getD]

/-- Settles O8: the I²C encoder reads 15 elements, the other two read 8. -/
theorem truncationChangesNoTrace : Obligations.TruncationChangesNoTrace := by
  intro b hb
  have h8 : ∀ i < 8, (b.take 8).getD i false = b.getD i false := fun i hi => getD_take hi
  refine ⟨fun p => ⟨encodeTrace_take p hb, encodeTrace_congr p (by simpa using hb) hb fun i hi => getD_take hi⟩, ?_, ?_⟩
  · simp [encodeTrace, hb, encodeUart_congr h8]
  · simp [encodeTrace, hb, encodeSpi_congr h8]

/-- Settles O9: the three trace sets, each with the lengths of its Signals. -/
theorem traceSetsHaveTheirShape : Obligations.TraceSetsHaveTheirShape := by
  intro p b names n hb hmem
  simp only [List.mem_cons, Prod.mk.injEq, List.not_mem_nil, or_false] at hmem
  obtain ⟨rfl, rfl, rfl⟩ | ⟨rfl, rfl, rfl⟩ | ⟨rfl, rfl, rfl⟩ := hmem
  · exact ⟨rfl, _, encodeTrace_uart hb, rfl, rfl, by simp⟩
  · exact ⟨rfl, _, encodeTrace_spi hb, rfl, rfl, by simp⟩
  · exact ⟨rfl, _, encodeTrace_i2c hb, rfl, rfl, by simp⟩

/-! ### Samples as functions of the elements -/

/-- `e` names the elements of `b` that a trace can show: the first 15, 0 past the end. -/
def ElementsAre (b : BitSequence) (e : Nat → Level) : Prop := ∀ i < 15, b.getD i false = e i

theorem elementsAre_getD (b : BitSequence) : ElementsAre b (fun i => b.getD i false) := fun _ _ => rfl

/-- The elements a word carries are rule R79's padded elements. -/
theorem elementsAre_bits (w : Word) : ElementsAre (bits w) (e16 w) := fun i hi => getD_bits w i (by omega)

/-- A fitted sequence lists its elements. -/
theorem fit_eq_map_range {n : Nat} (h : ∀ i < n, b.getD i false = e i) : fit n b = (List.range n).map e := by
  apply List.ext_getElem (by simp)
  intro i hi hi'
  rw [getElem_fit, List.getElem_map, List.getElem_range]
  exact h i (by simpa using hi)

theorem getElem?_map_range {n k : Nat} (f : Nat → Level) (hk : k < n) : ((List.range n).map f)[k]? = some (f k) := by
  simp [hk]

/-- TX at sample `k` (rule R143). -/
def txSample (e : Nat → Level) (k : Nat) : Level :=
  if k = 0 then true else if k = 1 then false else if k ≤ 9 then e (9 - k) else true

/-- MOSI at sample `k` (rule R166, decision D19). -/
def mosiSample (e : Nat → Level) (k : Nat) : Level :=
  if k / 2 = 0 then e 0 else if k / 2 ≤ 8 then e (k / 2 - 1) else e 7

/-- `q` by index (rule R183). -/
def i2cBit (e : Nat → Level) (i : Nat) : Level :=
  if i ≤ 6 then e i else if 9 ≤ i ∧ i ≤ 16 then e (i - 2) else false

/-- SCL at sample `k` (rule R187). -/
def sclSample (k : Nat) : Level := if k / 2 ∈ [0, 1, 20, 21] then true else decide (k % 2 = 1)

/-- SDA at sample `k` (rule R187). -/
def sdaSample (e : Nat → Level) (k : Nat) : Level :=
  if k / 2 = 0 ∨ k / 2 = 21 then true
  else if k / 2 = 1 then decide (k % 2 = 0)
  else if k / 2 ≤ 19 then i2cBit e (k / 2 - 2)
  else decide (k % 2 = 1)

/-- TX is its 12 samples. -/
theorem uartTxLevels_eq (h : ElementsAre b e) : uartTxLevels b = (List.range 12).map (txSample e) := by
  have hfit : fit 8 b = (List.range 8).map e := fit_eq_map_range fun i hi => h i (by omega)
  rw [uartTxLevels, hfit]
  rfl

/-- MOSI is its 20 samples. -/
theorem spiMosi_eq (h : ElementsAre b e) : spiMosi (spiData b) = (List.range 20).map (mosiSample e) := by
  have hfit : spiData b = (List.range 8).map e := fit_eq_map_range (n := 8) fun i hi => h i (by omega)
  rw [hfit]
  rfl

/-- `q` is its 18 bits. -/
theorem i2cSequence_eq (h : ElementsAre b e) : i2cSequence b = (List.range 18).map (i2cBit e) := by
  have haddr : i2cAddress b = (List.range 7).map e := fit_eq_map_range (n := 7) fun i hi => by
    rw [getD_slice _ _ _ _ hi, Nat.zero_add, h i (by omega)]
  have hdata : i2cData b = (List.range 8).map (fun i => e (7 + i)) := fit_eq_map_range (n := 8) fun i hi => by
    rw [getD_slice _ _ _ _ hi]
    exact h (7 + i) (by omega)
  rw [i2cSequence, haddr, hdata]
  rfl

/-- SCL is its 44 samples, whatever `q` holds. -/
theorem i2cScl_eq (b : BitSequence) : i2cScl (i2cSequence b) = (List.range 44).map sclSample := by
  rw [i2cSequence_eq (elementsAre_getD b)]
  rfl

/-- SDA is its 44 samples. -/
theorem i2cSda_eq (h : ElementsAre b e) : i2cSda (i2cSequence b) = (List.range 44).map (sdaSample e) := by
  rw [i2cSequence_eq h]
  rfl

theorem getElem?_uartTxLevels (h : ElementsAre b e) {k : Nat} (hk : k < 12) :
    (uartTxLevels b)[k]? = some (txSample e k) := by
  rw [uartTxLevels_eq h, getElem?_map_range _ hk]

theorem getElem?_spiMosi (h : ElementsAre b e) {k : Nat} (hk : k < 20) :
    (spiMosi (spiData b))[k]? = some (mosiSample e k) := by
  rw [spiMosi_eq h, getElem?_map_range _ hk]

theorem getElem?_i2cScl (b : BitSequence) {k : Nat} (hk : k < 44) :
    (i2cScl (i2cSequence b))[k]? = some (sclSample k) := by
  rw [i2cScl_eq, getElem?_map_range _ hk]

theorem getElem?_i2cSda (h : ElementsAre b e) {k : Nat} (hk : k < 44) :
    (i2cSda (i2cSequence b))[k]? = some (sdaSample e k) := by
  rw [i2cSda_eq h, getElem?_map_range _ hk]

end Sys2Proof.Machine

/-! ## The contracts of the three encoders, and the lines that show them

The SPI and I²C timing contracts, the bits an I²C receiver reads, the slot roles, and the six lines at every POS (rules
R123, R143 to R146, R166 to R170, R183 to R191). -/

namespace Sys2Proof.Machine

variable {b : BitSequence} {e : Nat → Level}

/-! ### SPI mode 0 -/

/-- SCLK rises where the second half of a data slot begins: one fixed list of 20 levels (rule R169). -/
theorem spiSclk_rises_iff : ∀ n < 20, 1 ≤ n →
    ((spiSclk[n - 1]? = some false ∧ spiSclk[n]? = some true) ↔ n ∈ [3, 5, 7, 9, 11, 13, 15, 17]) := by
  decide

/-- SCLK falls where a data slot ends: one fixed list of 20 levels (rule R169). -/
theorem spiSclk_falls_iff : ∀ n < 20, 1 ≤ n →
    ((spiSclk[n - 1]? = some true ∧ spiSclk[n]? = some false) ↔ n ∈ [4, 6, 8, 10, 12, 14, 16, 18]) := by
  decide

/-- SS is low on both sides of a rising edge of SCLK (rule R169). -/
theorem spiSs_low_of_rise :
    ∀ n ∈ [3, 5, 7, 9, 11, 13, 15, 17], spiSs[n - 1]? = some false ∧ spiSs[n]? = some false := by
  decide

/-- A data slot shows its element in both halves (rule R165). -/
theorem mosiSample_slot {j h : Nat} (hj : j < 8) (hh : h < 2) : mosiSample e (2 + h + 2 * j) = e j := by
  have hslot : (2 + h + 2 * j) / 2 = j + 1 := by omega
  rw [mosiSample, hslot, if_neg (by omega), if_pos (by omega), Nat.add_sub_cancel]

/-- MOSI keeps its level but where one data slot follows another (rule R170). -/
theorem mosiSample_eq_pred {n : Nat} (h1 : 1 ≤ n) (hn : n < 20) (hstay : n ∉ [4, 6, 8, 10, 12, 14, 16]) :
    mosiSample e n = mosiSample e (n - 1) := by
  obtain rfl | rfl | hodd : n = 2 ∨ n = 18 ∨ n / 2 = (n - 1) / 2 := by
    simp only [List.mem_cons, List.not_mem_nil, or_false, not_or] at hstay
    omega
  · rfl
  · rfl
  · rw [mosiSample, mosiSample, hodd]

/-- Settles O12: the edges by the fixed lists, MOSI by its samples. -/
theorem spiModeZeroContract : Obligations.SpiModeZeroContract := by
  intro b hb
  have hmosi {k : Nat} (hk : k < 20) := getElem?_spiMosi (elementsAre_getD b) hk
  have hslot {j h : Nat} (hj : j < 8) (hh : h < 2) :
      (spiMosi (spiData b))[2 + h + 2 * j]? = some (b.getD j false) := by
    rw [hmosi (by omega), mosiSample_slot hj hh]
  refine ⟨_, _, _, encodeTrace_spi hb, fun n h1 hn => ?_,
    fun j hj => ⟨hslot hj Nat.zero_lt_two, hslot hj Nat.one_lt_two⟩, ?_⟩
  · have hrise := spiSclk_rises_iff n hn h1
    have hfall := spiSclk_falls_iff n hn h1
    refine ⟨hrise, hfall, fun h => spiSs_low_of_rise n (hrise.1 h), fun hne => ?_⟩
    have hmem : n ∈ [4, 6, 8, 10, 12, 14, 16] := by
      by_contra hstay
      rw [hmosi hn, hmosi (by omega), mosiSample_eq_pred h1 hn hstay] at hne
      exact hne rfl
    have hmem' : n ∈ [4, 6, 8, 10, 12, 14, 16, 18] := List.mem_append_left [18] hmem
    exact ⟨hmem, hfall.2 hmem'⟩
  · rw [spiMosi_eq (elementsAre_getD b), fit_eq_map_range fun i _ => rfl]
    rfl

/-! ### I²C -/

/-- The 18 bit slots hold `q` for both halves (rule R186). -/
theorem sdaSample_slot {i h : Nat} (hi : i < 18) (hh : h < 2) : sdaSample e (4 + h + 2 * i) = i2cBit e i := by
  have hslot : (4 + h + 2 * i) / 2 = i + 2 := by omega
  rw [sdaSample, hslot, if_neg (by omega), if_neg (by omega), if_pos (by omega), Nat.add_sub_cancel]

/-- SCL is low in the first half of a bit slot (rule R185). -/
theorem sclSample_eq_false {n : Nat} (heven : n % 2 = 0) (h4 : 4 ≤ n) (hn : n < 40) : sclSample n = false := by
  have hslot : n / 2 ∉ [0, 1, 20, 21] := by
    simp only [List.mem_cons, List.not_mem_nil, or_false]
    omega
  rw [sclSample, if_neg hslot, heven]
  rfl

/-- SDA keeps its level but at the Start, at the Stop and where one bit slot follows another (rule R188). -/
theorem sdaSample_eq_pred {n : Nat} (h1 : 1 ≤ n) (hn : n < 44) (hstart : n ≠ 3) (hstop : n ≠ 41)
    (hslot : ¬ (n % 2 = 0 ∧ 4 ≤ n ∧ n ≤ 38)) : sdaSample e n = sdaSample e (n - 1) := by
  obtain rfl | rfl | rfl | rfl | rfl | ⟨i, hi, rfl⟩ :
      n = 1 ∨ n = 2 ∨ n = 40 ∨ n = 42 ∨ n = 43 ∨ ∃ i < 18, n = 4 + 1 + 2 * i := by
    by_cases hodd : 5 ≤ n ∧ n ≤ 39
    · iterate 5 right
      exact ⟨(n - 5) / 2, by omega, by omega⟩
    · omega
  case inr.inr.inr.inr.inr =>
    have hpred : 4 + 1 + 2 * i - 1 = 4 + 0 + 2 * i := by omega
    rw [hpred, sdaSample_slot hi Nat.one_lt_two, sdaSample_slot hi Nat.zero_lt_two]
  all_goals rfl

/-- Settles O14: a change of SDA is the Start, the Stop or the low half of a bit slot. -/
theorem i2cStartStopAndStability : Obligations.I2cStartStopAndStability := by
  intro b hb
  have hscl {k : Nat} (hk : k < 44) := getElem?_i2cScl b hk
  have hsda {k : Nat} (hk : k < 44) := getElem?_i2cSda (elementsAre_getD b) hk
  refine ⟨_, _, encodeTrace_i2c hb, ⟨hsda (by omega), hsda (by omega), hscl (by omega), hscl (by omega)⟩,
    ⟨hsda (by omega), hsda (by omega), hscl (by omega), hscl (by omega)⟩, fun n h1 hn hne => ?_, fun i hi => ?_⟩
  · have hchange : n = 3 ∨ n = 41 ∨ (n % 2 = 0 ∧ 4 ≤ n ∧ n ≤ 38) := by
      by_contra hstay
      obtain ⟨hstart, hstop, hslot⟩ : n ≠ 3 ∧ n ≠ 41 ∧ ¬ (n % 2 = 0 ∧ 4 ≤ n ∧ n ≤ 38) := by
        simpa only [not_or] using hstay
      rw [hsda hn, hsda (by omega), sdaSample_eq_pred h1 hn hstart hstop hslot] at hne
      exact hne rfl
    obtain rfl | rfl | ⟨heven, h4, h38⟩ := hchange
    · exact ⟨fun _ => .inl rfl, fun hlow => absurd ⟨hscl (by omega), hscl hn⟩ hlow⟩
    · exact ⟨fun _ => .inr rfl, fun hlow => absurd ⟨hscl (by omega), hscl hn⟩ hlow⟩
    · have hlow : (i2cScl (i2cSequence b))[n]? = some false := by
        rw [hscl hn, sclSample_eq_false heven h4 (by omega)]
      exact ⟨fun hhigh => by simp [hlow] at hhigh, fun _ => ⟨heven, h4, h38, hlow⟩⟩
  · exact (getElem?_i2cSda_slot (h := 1) (by simpa using hi) Nat.one_lt_two).trans
      (getElem?_i2cSda_slot (h := 0) (by simpa using hi) Nat.zero_lt_two).symm

/-- The address byte on the wire ends in the R/W bit 0, so it is twice the address (rule R191). -/
theorem sum_i2cBit_address (e : Nat → Level) :
    ((List.range 8).map (fun i => (i2cBit e i).toNat * 2 ^ (7 - i))).sum
      = 2 * ((List.range 7).map (fun i => (e i).toNat * 2 ^ (6 - i))).sum := by
  simp [List.range_succ, i2cBit]
  ring

/-- Settles O15: the second half of slot `i` shows bit `i` of `q`, whose bits 7, 8 and 17 are 0. -/
theorem i2cCarriesAddressAndData : Obligations.I2cCarriesAddressAndData := by
  intro b hb
  have hbit (i : Nat) (hi : i < 18) :
      (i2cSda (i2cSequence b))[5 + 2 * i]? = some (i2cBit (fun i => b.getD i false) i) := by
    rw [getElem?_i2cSda (elementsAre_getD b) (by omega)]
    exact congrArg some (sdaSample_slot (h := 1) hi Nat.one_lt_two)
  have haddr : ∀ i < 7, (i2cSda (i2cSequence b))[5 + 2 * i]? = some (b.getD i false) := fun i hi => by
    rw [hbit i (by omega), i2cBit, if_pos (by omega)]
  have hdata : ∀ i < 8, (i2cSda (i2cSequence b))[5 + 2 * (9 + i)]? = some (b.getD (7 + i) false) := fun i hi => by
    have hindex : 9 + i - 2 = 7 + i := by omega
    rw [hbit (9 + i) (by omega), i2cBit, if_neg (by omega), if_pos (by omega), hindex]
  have hzero : ∀ i ∈ [7, 8, 17], (i2cSda (i2cSequence b))[5 + 2 * i]? = some false := by
    simp only [List.forall_mem_cons]
    exact ⟨hbit 7 (by omega), hbit 8 (by omega), hbit 17 (by omega), nofun⟩
  refine ⟨_, _, encodeTrace_i2c hb, haddr, hzero, hdata, ?_, ?_⟩
  · rw [← sum_i2cBit_address]
    refine congrArg List.sum (List.map_congr_left fun i hi => ?_)
    have h8 := List.mem_range.1 hi
    rw [List.getD_eq_getElem?_getD, hbit i (by omega), Option.getD_some]
  · refine congrArg List.sum (List.map_congr_left fun i hi => ?_)
    rw [List.getD_eq_getElem?_getD, hdata i (List.mem_range.1 hi), Option.getD_some]

/-! ### The six lines -/

section Lines
variable {s : State} {p : Protocol} {n : SignalName}

/-- While a command plays, a line of its protocol shows sample `POS - 1` of its Signal (rules R123, R124). -/
theorem State.Inv.line_sample {tr : SignalTraceSet} {l : List Level} {k : Nat} {v : Level} (hi : s.Inv)
    (hb : s.busy = true) (hp : proto s.cmdR = some n.protocol) (hpos : s.pos.toNat = k + 1)
    (htr : encodeTrace n.protocol (bits s.cmdR) = .ok tr) (hl : tr.levelsOf n = some l) (hv : l[k]? = some v) :
    s.line n = some v := by
  rw [hi.line_eq hb hp htr, if_pos ⟨rfl, by omega⟩, hl, Option.bind_some, hpos, Nat.add_sub_cancel, hv]

/-- A line of another protocol is idle (rule R125). -/
theorem State.line_of_other_proto (hp : proto s.cmdR = some p) (hn : p ≠ n.protocol) :
    s.line n = some n.idleLevel :=
  State.line_of_not_playing fun _ h => hn (Option.some.inj (hp.symm.trans h))

/-- A held command carries at least one element. -/
theorem State.Inv.bits_ne_nil (hi : s.Inv) (hb : s.busy = true) (hp : proto s.cmdR = some p) : bits s.cmdR ≠ [] :=
  bits_ne_nil_of_classify (hi.classify_held hb hp)

end Lines

/-- Settles O38: TX shows its sample, the other lines are of other protocols. -/
theorem uartLinesShowTheFrame : Obligations.UartLinesShowTheFrame := by
  intro s k hi hb hp hpos
  have hk : s.pos.toNat ≤ 12 := hi.posWithinTrace hb _ hp
  have htr := encodeTrace_uart (hi.bits_ne_nil hb hp)
  have htx := getElem?_uartTxLevels (elementsAre_bits s.cmdR) (k := k) (by omega)
  have hidle {n : SignalName} (hn : Protocol.uart ≠ n.protocol) := State.line_of_other_proto hp hn
  exact State.lines_of_line hi.unreachable_eq_none (hi.line_sample (n := .tx) hb hp hpos htr rfl htx)
    (hidle nofun) (hidle nofun) (hidle nofun) (hidle nofun) (hidle nofun)

/-- SS and SCLK by slots, as rule R166 writes them: two fixed lists of 20 levels. -/
theorem getElem?_spiSs_spiSclk_slot : ∀ k < 20,
    spiSs[k]? = some (decide (k / 2 = 0 ∨ k / 2 = 9)) ∧
    spiSclk[k]? = some (if k / 2 = 0 ∨ k / 2 = 9 then false else decide (k % 2 = 1)) := by
  decide

/-- Settles O39: the three SPI lines show their samples, the other lines are of other protocols. -/
theorem spiLinesShowTheTransfer : Obligations.SpiLinesShowTheTransfer := by
  intro s k hi hb hp hpos
  have hk : s.pos.toNat ≤ 20 := hi.posWithinTrace hb _ hp
  have htr := encodeTrace_spi (hi.bits_ne_nil hb hp)
  obtain ⟨hss, hsclk⟩ := getElem?_spiSs_spiSclk_slot k (by omega)
  have hmosi := getElem?_spiMosi (elementsAre_bits s.cmdR) (k := k) (by omega)
  have hidle {n : SignalName} (hn : Protocol.spi ≠ n.protocol) := State.line_of_other_proto hp hn
  exact State.lines_of_line hi.unreachable_eq_none (hidle nofun) (hi.line_sample (n := .ss) hb hp hpos htr rfl hss)
    (hi.line_sample (n := .sclk) hb hp hpos htr rfl hsclk) (hi.line_sample (n := .mosi) hb hp hpos htr rfl hmosi)
    (hidle nofun) (hidle nofun)

/-- Settles O40: the two I²C lines show their samples, the other lines are of other protocols. -/
theorem i2cLinesShowTheWrite : Obligations.I2cLinesShowTheWrite := by
  intro s k hi hb hp hpos q
  have hk : s.pos.toNat ≤ 44 := hi.posWithinTrace hb _ hp
  have htr := encodeTrace_i2c (hi.bits_ne_nil hb hp)
  have hscl := getElem?_i2cScl (bits s.cmdR) (k := k) (by omega)
  have hsda := getElem?_i2cSda (elementsAre_bits s.cmdR) (k := k) (by omega)
  have hidle {n : SignalName} (hn : Protocol.i2c ≠ n.protocol) := State.line_of_other_proto hp hn
  exact State.lines_of_line hi.unreachable_eq_none (hidle nofun) (hidle nofun) (hidle nofun) (hidle nofun)
    (hi.line_sample (n := .scl) hb hp hpos htr rfl hscl) (hi.line_sample (n := .sda) hb hp hpos htr rfl hsda)

end Sys2Proof.Machine

/-! ## Slot roles

The roles as lists, the numbers whose bits they name, and the level of each slot by its role (rules R145, R146, R168,
R189, R191). -/

namespace Sys2Proof.Machine

variable {b : BitSequence} {e : Nat → Level}

/-! ### The roles, slot by slot -/

theorem uartRole_eq_getElem? (k : Nat) : uartRole k =
    ([.idle, .start, .data 0, .data 1, .data 2, .data 3, .data 4, .data 5, .data 6, .data 7, .stop, .idle] :
      List SlotRole)[k]? := by
  by_cases hk : k < 12
  · revert k
    decide
  · rw [List.getElem?_eq_none (by simpa using hk)]
    simp (disch := omega) only [uartRole, if_neg]

theorem spiRole_eq_getElem? (k : Nat) : spiRole k =
    ([.idle, .data 7, .data 6, .data 5, .data 4, .data 3, .data 2, .data 1, .data 0, .idle] : List SlotRole)[k]? := by
  by_cases hk : k < 10
  · revert k
    decide
  · rw [List.getElem?_eq_none (by simpa using hk)]
    simp (disch := omega) only [spiRole, if_neg]

theorem i2cRole_eq_getElem? (k : Nat) : i2cRole k =
    ([.idle, .start, .addr 6, .addr 5, .addr 4, .addr 3, .addr 2, .addr 1, .addr 0, .rw, .ack,
      .data 7, .data 6, .data 5, .data 4, .data 3, .data 2, .data 1, .data 0, .ack, .stop, .idle] :
      List SlotRole)[k]? := by
  by_cases hk : k < 22
  · revert k
    decide
  · rw [List.getElem?_eq_none (by simpa using hk)]
    simp (disch := omega) only [i2cRole, if_neg]

/-! ### The numbers sent -/

/-- The number of a fitted sequence as a sum over the whole width (rules R145, R181, R182). -/
theorem seqValue_fit_eq_sum (n : Nat) (b : BitSequence) :
    seqValue (fit n b) = ((List.range n).map (fun i => (b.getD i false).toNat * 2 ^ (n - 1 - i))).sum := by
  have hgetD {i : Nat} (hi : i < n) : (fit n b).getD i false = b.getD i false := by
    rw [List.getD_eq_getElem?_getD, getElem?_fit b hi, Option.getD_some]
  have hfit : fit n (fit n b) = fit n b := fit_congr fun i hi => hgetD hi
  rw [← hfit, seqValue_fit, length_fit, Nat.min_self]
  refine congrArg List.sum (List.map_congr_left fun i hi => ?_)
  rw [hgetD (List.mem_range.1 hi)]

/-- Element `i` of a fitted sequence is bit `n - 1 - i` of its number (rule R145). -/
theorem testBit_seqValue_fit {n i : Nat} (b : BitSequence) (hi : i < n) :
    (seqValue (fit n b)).testBit (n - 1 - i) = b.getD i false := by
  have hbit := testBit_seqValue (fit n b) (i := i) (by simpa using hi)
  rwa [length_fit, List.getD_eq_getElem?_getD, getElem?_fit b hi, Option.getD_some] at hbit

theorem getD_drop (b : BitSequence) (a i : Nat) : (b.drop a).getD i false = b.getD (a + i) false := by
  rw [List.getD_eq_getElem?_getD, List.getElem?_drop, List.getD_eq_getElem?_getD]

/-! ### The slots of a role -/

variable {k h : Nat} {r : SlotRole}

/-- Where each UART role stands (rule R146). -/
theorem uartRole_cases (hr : uartRole k = some r) :
    (r = .idle ∧ (k = 0 ∨ k = 11)) ∨ (r = .start ∧ k = 1) ∨ (∃ j < 8, r = .data j ∧ k = 2 + j) ∨
      (r = .stop ∧ k = 10) := by
  unfold uartRole at hr
  split_ifs at hr with h0 h1 h9 h10 h11 <;> cases hr
  · exact .inl ⟨rfl, .inl h0⟩
  · exact .inr (.inl ⟨rfl, h1⟩)
  · exact .inr (.inr (.inl ⟨k - 2, by omega, rfl, by omega⟩))
  · exact .inr (.inr (.inr ⟨rfl, h10⟩))
  · exact .inl ⟨rfl, .inr h11⟩

/-- Where each SPI role stands (rule R168). -/
theorem spiRole_cases (hr : spiRole k = some r) :
    (r = .idle ∧ (k = 0 ∨ k = 9)) ∨ ∃ i < 8, r = .data (7 - i) ∧ k = 1 + i := by
  unfold spiRole at hr
  split_ifs at hr with h0 h8 h9 <;> cases hr
  · exact .inl ⟨rfl, .inl h0⟩
  · exact .inr ⟨k - 1, by omega, congrArg _ (by omega), by omega⟩
  · exact .inl ⟨rfl, .inr h9⟩

/-- Where each I²C role stands (rule R189). -/
theorem i2cRole_cases (hr : i2cRole k = some r) :
    (r = .idle ∧ (k = 0 ∨ k = 21)) ∨ (r = .start ∧ k = 1) ∨ (∃ i < 7, r = .addr (6 - i) ∧ k = 2 + i) ∨
      (r = .rw ∧ k = 9) ∨ (r = .ack ∧ (k = 10 ∨ k = 19)) ∨ (∃ i < 8, r = .data (7 - i) ∧ k = 11 + i) ∨
      (r = .stop ∧ k = 20) := by
  unfold i2cRole at hr
  split_ifs at hr with h0 h1 h8 h9 h10 h18 h19 h20 h21 <;> cases hr
  · exact .inl ⟨rfl, .inl h0⟩
  · exact .inr (.inl ⟨rfl, h1⟩)
  · exact .inr (.inr (.inl ⟨k - 2, by omega, congrArg _ (by omega), by omega⟩))
  · exact .inr (.inr (.inr (.inl ⟨rfl, h9⟩)))
  · exact .inr (.inr (.inr (.inr (.inl ⟨rfl, .inl h10⟩))))
  · exact .inr (.inr (.inr (.inr (.inr (.inl ⟨k - 11, by omega, congrArg _ (by omega), by omega⟩)))))
  · exact .inr (.inr (.inr (.inr (.inl ⟨rfl, .inr h19⟩))))
  · exact .inr (.inr (.inr (.inr (.inr (.inr ⟨rfl, h20⟩)))))
  · exact .inl ⟨rfl, .inr h21⟩

/-! ### The level of a slot by its role -/

/-- The level on TX in a slot of a role, for the byte `v` (rules R145, R146). -/
def txLevelOfRole (v : Nat) : SlotRole → Level
  | .data j => v.testBit j
  | .start => false
  | _ => true

/-- The level on SDA in half `h` of a slot of a role, for the address `a` and the data `d` (rules R189, R191). -/
def sdaLevelOfRole (a d : Nat) (h : Nat) : SlotRole → Level
  | .addr j => a.testBit j
  | .data j => d.testBit j
  | .rw => false
  | .ack => false
  | .idle => true
  | .start => decide (h = 0)
  | .stop => decide (h = 1)

/-- TX shows the level its slot's role names. -/
theorem getElem?_uartTxLevels_of_role (b : BitSequence) (hr : uartRole k = some r) :
    (uartTxLevels b)[k]? = some (txLevelOfRole (seqValue (fit 8 b)) r) := by
  obtain ⟨rfl, rfl | rfl⟩ | ⟨rfl, rfl⟩ | ⟨j, hj, rfl, rfl⟩ | ⟨rfl, rfl⟩ := uartRole_cases hr
  · rfl
  · exact getElem?_uartTxLevels_end b Nat.one_lt_two
  · rfl
  · have hbit := testBit_seqValue_fit (n := 8) (i := 7 - j) b (by omega)
    have hindex : 8 - 1 - (7 - j) = j := by omega
    rw [getElem?_uartTxLevels_data b hj, getElem?_fit b (by omega), ← hbit, hindex]
    rfl
  · exact getElem?_uartTxLevels_end b Nat.zero_lt_two

/-- A data slot of MOSI shows the bit its role names, in both halves. -/
theorem getElem?_spiMosi_of_role {j : Nat} (b : BitSequence) (hr : spiRole k = some (.data j)) (hh : h < 2) :
    (spiMosi (spiData b))[2 * k + h]? = some ((seqValue (fit 8 b)).testBit j) := by
  obtain ⟨hidle, -⟩ | ⟨i, hi, hdata, rfl⟩ := spiRole_cases hr
  · cases hidle
  · cases hdata
    have hindex : 2 * (1 + i) + h = 2 + h + 2 * i := by omega
    rw [hindex, getElem?_spiMosi (elementsAre_getD b) (by omega), mosiSample_slot hi hh]
    exact congrArg some (testBit_seqValue_fit b hi).symm

/-- SS and SCLK by role: two fixed lists of 20 levels (rules R163, R164, R168). -/
theorem getElem?_spiSs_spiSclk_of_role : ∀ k < 10, ∀ h < 2, ∀ r ∈ spiRole k,
    spiSs[2 * k + h]? = some (decide (r = .idle)) ∧ spiSclk[2 * k + h]? = some (decide (r ≠ .idle ∧ h = 1)) := by
  decide

/-- SCL by role: a fixed list of 44 levels (rules R185, R189). -/
theorem sclSample_of_role : ∀ k < 22, ∀ h < 2, ∀ r ∈ i2cRole k,
    sclSample (2 * k + h) = decide (r = .idle ∨ r = .start ∨ r = .stop ∨ h = 1) := by
  decide

/-- SDA shows the level its slot's role names. -/
theorem sdaSample_of_role (b : BitSequence) (hr : i2cRole k = some r) (hh : h < 2) :
    sdaSample (fun i => b.getD i false) (2 * k + h)
      = sdaLevelOfRole (seqValue (fit 7 b)) (seqValue (fit 8 (b.drop 7))) h r := by
  have hhalf : h = 0 ∨ h = 1 := by omega
  obtain ⟨rfl, rfl | rfl⟩ | ⟨rfl, rfl⟩ | ⟨i, hi, rfl, rfl⟩ | ⟨rfl, rfl⟩ | ⟨rfl, rfl | rfl⟩ | ⟨i, hi, rfl, rfl⟩ |
    ⟨rfl, rfl⟩ := i2cRole_cases hr
  case inr.inr.inl =>
    have hindex : 2 * (2 + i) + h = 4 + h + 2 * i := by omega
    rw [hindex, sdaSample_slot (by omega) hh, i2cBit, if_pos (by omega)]
    exact (testBit_seqValue_fit b hi).symm
  case inr.inr.inr.inr.inr.inl =>
    have hindex : 2 * (11 + i) + h = 4 + h + 2 * (9 + i) := by omega
    have hpast : 9 + i - 2 = 7 + i := by omega
    rw [hindex, sdaSample_slot (by omega) hh, i2cBit, if_neg (by omega), if_pos (by omega), hpast, ← getD_drop]
    exact (testBit_seqValue_fit (b.drop 7) hi).symm
  all_goals obtain rfl | rfl := hhalf <;> rfl

/-- Settles O16: the roles as lists, the numbers as sums, and each slot's level by its role. -/
theorem slotRolesNameTheBits : Obligations.SlotRolesNameTheBits := by
  refine ⟨uartRole_eq_getElem?, spiRole_eq_getElem?, i2cRole_eq_getElem?, fun b hb => ⟨seqValue_fit_eq_sum 8 b,
    seqValue_fit_eq_sum 7 b, ?_, ⟨_, encodeTrace_uart hb, fun k r hr => ?_⟩,
    ⟨_, _, _, encodeTrace_spi hb, fun k r h hr hh => ?_⟩, ⟨_, _, encodeTrace_i2c hb, fun k r h hr hh => ?_⟩⟩⟩
  · simp only [seqValue_fit_eq_sum, getD_drop]
  · have htx := getElem?_uartTxLevels_of_role b hr
    exact ⟨by rintro j rfl; exact htx, by rintro (rfl | rfl) <;> exact htx, by rintro rfl; exact htx⟩
  · have hk : k < 10 := by
      rw [spiRole_eq_getElem?] at hr
      exact (List.getElem?_eq_some_iff.1 hr).1
    obtain ⟨hss, hsclk⟩ := getElem?_spiSs_spiSclk_of_role k hk h hh r hr
    constructor
    · rintro j rfl
      exact ⟨getElem?_spiMosi_of_role b hr hh, hss, by simpa using hsclk⟩
    · rintro rfl
      exact ⟨hss, hsclk⟩
  · have hk : k < 22 := by
      rw [i2cRole_eq_getElem?] at hr
      exact (List.getElem?_eq_some_iff.1 hr).1
    have hscl := getElem?_i2cScl b (k := 2 * k + h) (by omega)
    have hsda := getElem?_i2cSda (elementsAre_getD b) (k := 2 * k + h) (by omega)
    rw [sdaSample_of_role b hr hh] at hsda
    rw [sclSample_of_role k hk h hh r hr] at hscl
    refine ⟨?_, ?_, ?_, ?_, ?_, ?_, hscl⟩
    · rintro j rfl; exact hsda
    · rintro j rfl; exact hsda
    · rintro (rfl | rfl) <;> exact hsda
    · rintro rfl; exact hsda
    · rintro rfl; exact hsda
    · rintro rfl; exact hsda

end Sys2Proof.Machine

/-! ## Trimming and text commands

What `trim` removes from each end, and that a text which normalizes carries an element (rules R211, R217 to R219). -/

namespace Sys2Proof.Machine

/-! ### Trimming -/

/-- The first element that `dropWhile` keeps fails the test. -/
theorem not_of_head?_dropWhile {p : Char → Bool} {l : List Char} {c : Char} (h : (l.dropWhile p).head? = some c) :
    ¬ p c := by
  rw [← List.find?_not_eq_head?_dropWhile] at h
  simpa using List.find?_some h

/-- Trimming drops set characters at the front, then at the end (rule R211). -/
theorem trim_eq_rdropWhile (ts raw : List Char) :
    trim ts raw = (raw.dropWhile ts.contains).rdropWhile ts.contains := rfl

/-- What is left has no set character at its front: it begins as the front-trimmed string does. -/
theorem not_mem_of_head?_trim {ts raw : List Char} {c : Char} (h : (trim ts raw).head? = some c) : c ∉ ts := by
  obtain ⟨rest, hrest⟩ := List.rdropWhile_prefix ts.contains (raw.dropWhile ts.contains)
  have hfront : (raw.dropWhile ts.contains).head? = some c := by
    rw [← hrest, List.head?_append, ← trim_eq_rdropWhile, h, Option.some_or]
  simpa using not_of_head?_dropWhile hfront

/-- Nor has it one at its end. -/
theorem not_mem_of_getLast?_trim {ts raw : List Char} {c : Char} (h : (trim ts raw).getLast? = some c) : c ∉ ts := by
  rw [trim, List.getLast?_reverse] at h
  simpa using not_of_head?_dropWhile h

/-- Settles O54: the two removed parts are the set characters taken at the two ends. -/
theorem trimRemovesOnlyTheEnds : Obligations.TrimRemovesOnlyTheEnds := by
  intro ts raw
  refine ⟨raw.takeWhile ts.contains, (raw.dropWhile ts.contains).rtakeWhile ts.contains, ?_, fun c hc => ?_,
    fun c hc => ?_, fun c => not_mem_of_head?_trim, fun c => not_mem_of_getLast?_trim⟩
  · rw [List.append_assoc, trim_eq_rdropWhile, List.rdropWhile_append_rtakeWhile, List.takeWhile_append_dropWhile]
  · simpa using List.mem_takeWhile_imp hc
  · simpa using List.mem_rtakeWhile_imp hc

/-! ### Text commands -/

/-- A text that normalizes has at least one element: its trimmed string has a character, which gives one or four (rules
R212 to R214). -/
theorem ne_nil_of_normalize {ts raw : List Char} {b : BitSequence} (h : normalize ts raw = .ok b) : b ≠ [] := by
  by_cases hne : trim ts raw = []
  · simp [normalize_of_empty hne] at h
  · by_cases hbin : ∀ c ∈ trim ts raw, c = '0' ∨ c = '1'
    · rw [normalize_of_binary hne hbin] at h
      obtain rfl : binaryBits (trim ts raw) = b := by simpa using h
      simpa [binaryBits] using hne
    · rw [normalize_of_not_binary (by simpa using hbin)] at h
      cases hb : hexBits (trim ts raw) with
      | none => simp [hb] at h
      | some b' =>
        obtain rfl : b' = b := by simpa [hb] using h
        have hlen := length_hexBits hb
        have hpos := List.length_pos_iff.2 hne
        exact List.ne_nil_of_length_pos (by omega)

/-- A text command is the loader's, of the elements the text normalizes to (rules R87, R218). -/
theorem exists_normalize_of_textCommand {ts raw : List Char} {p : Protocol} {i : Instr}
    (h : textCommand ts p raw = .ok i) : ∃ b, normalize ts raw = .ok b ∧ i = loadCommand p b := by
  unfold textCommand at h
  cases hb : normalize ts raw with
  | error e => simp [hb] at h
  | ok b => exact ⟨b, rfl, by simpa [hb] using h.symm⟩

/-- Settles O58: the loader is given at least one element, so its word is legal and not EMPTY. -/
theorem textCommandsAreNeverEmpty : Obligations.TextCommandsAreNeverEmpty := by
  intro ts p raw i h
  obtain ⟨b, hb, rfl⟩ := exists_normalize_of_textCommand h
  have hne := ne_nil_of_normalize hb
  have hc := classify_encode_loadCommand p hne
  obtain ⟨tr, htr⟩ := encodeTrace_ok_of_ne_nil p (bits_ne_nil_of_classify hc)
  exact ⟨by simpa [loadCommand] using loadLen_ne_zero hne, by simp [loadCommand], tr,
    by rw [trace_of_classify hc, htr]; rfl⟩

end Sys2Proof.Machine
